-- ==== Sys2Proof/Word.lean ====
section
/-! DEFINITION. The word types of the block: bytes, 16-bit words, 12-bit addresses and register numbers. -/

namespace Sys2Proof

/-- A byte: the width of a V register, an immediate `kk`, a timer and a memory cell (R9, R20, R30). -/
abbrev Byte := BitVec 8

/-- A 16-bit word: an opcode, PC, I, a stack entry, a fault register (R9, R23, R26, R27, R38). -/
abbrev Word := BitVec 16

/-- The 12-bit address immediate `nnn` (R65). -/
abbrev Addr := BitVec 12

/-- The number of a V register or of a key, 0 to 15 (R20, R35, R68). -/
abbrev Reg := Fin 16

/-- VF, index 15 of the register array, the flag register (R20, R21). -/
abbrev Reg.vf : Reg := 15

end Sys2Proof
end

