-- ==== Sys2Proof/Syntax.lean ====
section
/-! DEFINITION. The instructions: one constructor per row of the opcode map (R75), in its order. -/

namespace Sys2Proof

/-- The 34 instructions. A constructor carries the fields its format reads (R66); bits that the decoder does not
examine (op[11:8] of CLS and RET, R70; op[3:0] of 5xy0 and 9xy0, R74) are no fields. SHR and SHL keep the `y` field
of their format, which their meaning ignores (R79, R112, R114). -/
inductive Instr where
  /-- 00E0 CLS (R125) -/
  | cls
  /-- 00EE RET (R94) -/
  | ret
  /-- 1nnn JP nnn (R95) -/
  | jp (nnn : Addr)
  /-- 2nnn CALL nnn (R96) -/
  | call (nnn : Addr)
  /-- 3xkk SE Vx, kk (R97) -/
  | seKk (x : Reg) (kk : Byte)
  /-- 4xkk SNE Vx, kk (R98) -/
  | sneKk (x : Reg) (kk : Byte)
  /-- 5xy0 SE Vx, Vy (R99) -/
  | seVy (x y : Reg)
  /-- 6xkk LD Vx, kk (R104) -/
  | ldKk (x : Reg) (kk : Byte)
  /-- 7xkk ADD Vx, kk (R105) -/
  | addKk (x : Reg) (kk : Byte)
  /-- 8xy0 LD Vx, Vy (R106) -/
  | ldVy (x y : Reg)
  /-- 8xy1 OR Vx, Vy (R107) -/
  | orVy (x y : Reg)
  /-- 8xy2 AND Vx, Vy (R108) -/
  | andVy (x y : Reg)
  /-- 8xy3 XOR Vx, Vy (R109) -/
  | xorVy (x y : Reg)
  /-- 8xy4 ADD Vx, Vy (R110) -/
  | addVy (x y : Reg)
  /-- 8xy5 SUB Vx, Vy (R111) -/
  | subVy (x y : Reg)
  /-- 8xy6 SHR Vx (R112) -/
  | shr (x y : Reg)
  /-- 8xy7 SUBN Vx, Vy (R113) -/
  | subnVy (x y : Reg)
  /-- 8xyE SHL Vx (R114) -/
  | shl (x y : Reg)
  /-- 9xy0 SNE Vx, Vy (R100) -/
  | sneVy (x y : Reg)
  /-- Annn LD I, nnn (R118) -/
  | ldI (nnn : Addr)
  /-- Bnnn JP V0, nnn (R101) -/
  | jpV0 (nnn : Addr)
  /-- Cxkk RND Vx, kk (R115) -/
  | rnd (x : Reg) (kk : Byte)
  /-- Dxyn DRW Vx, Vy, n (R126); n is a count of rows, so a number -/
  | drw (x y : Reg) (n : Nat)
  /-- Ex9E SKP Vx (R129) -/
  | skp (x : Reg)
  /-- ExA1 SKNP Vx (R130) -/
  | sknp (x : Reg)
  /-- Fx07 LD Vx, DT (R131) -/
  | ldVxDt (x : Reg)
  /-- Fx0A LD Vx, K (R132) -/
  | ldVxK (x : Reg)
  /-- Fx15 LD DT, Vx (R133) -/
  | ldDtVx (x : Reg)
  /-- Fx18 LD ST, Vx (R134) -/
  | ldStVx (x : Reg)
  /-- Fx1E ADD I, Vx (R119) -/
  | addI (x : Reg)
  /-- Fx29 LD F, Vx (R120) -/
  | ldF (x : Reg)
  /-- Fx33 LD B, Vx (R121) -/
  | ldB (x : Reg)
  /-- Fx55 LD [I], Vx (R122) -/
  | storeRegs (x : Reg)
  /-- Fx65 LD Vx, [I] (R123) -/
  | loadRegs (x : Reg)
  deriving DecidableEq, Repr

end Sys2Proof
end

