-- ==== Sys2Proof/WellFormed.lean ====
section
/-! DEFINITION. Which instructions have an encoding. Register numbers, `kk` and `nnn` are bounded by their types;
the one check left is the sprite height. -/

namespace Sys2Proof

/-- An instruction has an encoding exactly when its operands fit their fields: `n` is 0 to 15 (R67). Every other
operand's type is its field's width (R65, R68), so there is nothing else to refuse. -/
def Instr.wellFormed : Instr → Bool
  | .drw _ _ n => decide (n ≤ 15)
  | .cls | .ret => true
  | .jp _ | .call _ | .ldI _ | .jpV0 _ => true
  | .seKk _ _ | .sneKk _ _ | .ldKk _ _ | .addKk _ _ | .rnd _ _ => true
  | .seVy _ _ | .sneVy _ _ => true
  | .ldVy _ _ | .orVy _ _ | .andVy _ _ | .xorVy _ _ | .addVy _ _ | .subVy _ _ => true
  | .shr _ _ | .subnVy _ _ | .shl _ _ => true
  | .skp _ | .sknp _ => true
  | .ldVxDt _ | .ldVxK _ | .ldDtVx _ | .ldStVx _ => true
  | .addI _ | .ldF _ | .ldB _ | .storeRegs _ | .loadRegs _ => true

end Sys2Proof
end

