-- ==== Sys2Proof/Decode.lean ====
section
/-! DEFINITION. The decoder (R69 to R78), the opcode map (R75), and the encoder written from the same formats (R66). -/

namespace Sys2Proof

/-! ### The fields of an opcode (R65) -/

/-- class, op[15:12] -/
def classOf (op : Word) : BitVec 4 := op.extractLsb' 12 4

/-- x, op[11:8], a register number -/
def fieldX (op : Word) : Reg := (op.extractLsb' 8 4).toFin

/-- y, op[7:4], a register number -/
def fieldY (op : Word) : Reg := (op.extractLsb' 4 4).toFin

/-- kk, op[7:0] -/
def fieldKk (op : Word) : Byte := op.extractLsb' 0 8

/-- nnn, op[11:0] -/
def fieldNnn (op : Word) : Addr := op.extractLsb' 0 12

/-- n, op[3:0], as the field's bits -/
def fieldN (op : Word) : BitVec 4 := op.extractLsb' 0 4

/-! ### The decoder -/

/-- What decoding gives: an instruction, or a rejection by name. -/
inductive Decoded where
  /-- the word matches this instruction's row -/
  | instr (i : Instr)
  /-- the word matches no row: `Unknown(op)` (R76) -/
  | unknown (op : Word)
  /-- there are not two bytes to read an opcode from -/
  | truncated
  deriving DecidableEq, Repr

/-- Class 0 sub-decodes on the low byte; op[11:8] is not examined (R70). -/
def decodeClass0 (op : Word) : Decoded :=
  match (fieldKk op).toNat with
  | 0xE0 => .instr .cls
  | 0xEE => .instr .ret
  | _ => .unknown op

/-- Class 8 sub-decodes on the low nibble (R71). -/
def decodeClass8 (op : Word) : Decoded :=
  match (fieldN op).toNat with
  | 0x0 => .instr (.ldVy (fieldX op) (fieldY op))
  | 0x1 => .instr (.orVy (fieldX op) (fieldY op))
  | 0x2 => .instr (.andVy (fieldX op) (fieldY op))
  | 0x3 => .instr (.xorVy (fieldX op) (fieldY op))
  | 0x4 => .instr (.addVy (fieldX op) (fieldY op))
  | 0x5 => .instr (.subVy (fieldX op) (fieldY op))
  | 0x6 => .instr (.shr (fieldX op) (fieldY op))
  | 0x7 => .instr (.subnVy (fieldX op) (fieldY op))
  | 0xE => .instr (.shl (fieldX op) (fieldY op))
  | _ => .unknown op

/-- Class E sub-decodes on the low byte (R72). -/
def decodeClassE (op : Word) : Decoded :=
  match (fieldKk op).toNat with
  | 0x9E => .instr (.skp (fieldX op))
  | 0xA1 => .instr (.sknp (fieldX op))
  | _ => .unknown op

/-- Class F sub-decodes on the low byte (R73). -/
def decodeClassF (op : Word) : Decoded :=
  match (fieldKk op).toNat with
  | 0x07 => .instr (.ldVxDt (fieldX op))
  | 0x0A => .instr (.ldVxK (fieldX op))
  | 0x15 => .instr (.ldDtVx (fieldX op))
  | 0x18 => .instr (.ldStVx (fieldX op))
  | 0x1E => .instr (.addI (fieldX op))
  | 0x29 => .instr (.ldF (fieldX op))
  | 0x33 => .instr (.ldB (fieldX op))
  | 0x55 => .instr (.storeRegs (fieldX op))
  | 0x65 => .instr (.loadRegs (fieldX op))
  | _ => .unknown op

/-- The decoder: a total function of the 16-bit word alone (R69, R76, R78). Classes 5 and 9 do not examine
op[3:0] (R74). -/
def decode (op : Word) : Decoded :=
  match (classOf op).toNat with
  | 0x0 => decodeClass0 op
  | 0x1 => .instr (.jp (fieldNnn op))
  | 0x2 => .instr (.call (fieldNnn op))
  | 0x3 => .instr (.seKk (fieldX op) (fieldKk op))
  | 0x4 => .instr (.sneKk (fieldX op) (fieldKk op))
  | 0x5 => .instr (.seVy (fieldX op) (fieldY op))
  | 0x6 => .instr (.ldKk (fieldX op) (fieldKk op))
  | 0x7 => .instr (.addKk (fieldX op) (fieldKk op))
  | 0x8 => decodeClass8 op
  | 0x9 => .instr (.sneVy (fieldX op) (fieldY op))
  | 0xA => .instr (.ldI (fieldNnn op))
  | 0xB => .instr (.jpV0 (fieldNnn op))
  | 0xC => .instr (.rnd (fieldX op) (fieldKk op))
  | 0xD => .instr (.drw (fieldX op) (fieldY op) (fieldN op).toNat)
  | 0xE => decodeClassE op
  | 0xF => decodeClassF op
  | _ => .unknown op

/-- The opcode of two consecutive bytes: the byte at the lower address is bits 15-8 (R51, R64). -/
def opcodeOfBytes (hi lo : Byte) : Word := hi ++ lo

/-- Decoding from bytes: two bytes are one opcode, high byte first (R64). Bytes after them are not looked at. -/
def decodeBytes : List Byte → Decoded
  | hi :: lo :: _ => decode (opcodeOfBytes hi lo)
  | [_] => .truncated
  | [] => .truncated

/-! ### The encoder, from the formats of R66 -/

/-- A register number as a 4-bit field. -/
def regBits (r : Reg) : BitVec 4 := BitVec.ofFin r

/-- format NNN: `cccc nnnn nnnn nnnn` -/
def formatNNN (c : BitVec 4) (nnn : Addr) : Word := c ++ nnn

/-- formats XKK and XS: `cccc xxxx kkkk kkkk` -/
def formatXKK (c : BitVec 4) (x : Reg) (kk : Byte) : Word := c ++ regBits x ++ kk

/-- formats XY, XYS and XYN: `cccc xxxx yyyy nnnn` -/
def formatXYN (c : BitVec 4) (x y : Reg) (n : BitVec 4) : Word := c ++ regBits x ++ regBits y ++ n

/-- The opcode of a well-formed instruction (R66, R75). Bits the decoder does not examine are encoded 0 (R79). -/
def encode : Instr → Word
  | .cls => formatXKK 0x0 0 0xE0
  | .ret => formatXKK 0x0 0 0xEE
  | .jp nnn => formatNNN 0x1 nnn
  | .call nnn => formatNNN 0x2 nnn
  | .seKk x kk => formatXKK 0x3 x kk
  | .sneKk x kk => formatXKK 0x4 x kk
  | .seVy x y => formatXYN 0x5 x y 0x0
  | .ldKk x kk => formatXKK 0x6 x kk
  | .addKk x kk => formatXKK 0x7 x kk
  | .ldVy x y => formatXYN 0x8 x y 0x0
  | .orVy x y => formatXYN 0x8 x y 0x1
  | .andVy x y => formatXYN 0x8 x y 0x2
  | .xorVy x y => formatXYN 0x8 x y 0x3
  | .addVy x y => formatXYN 0x8 x y 0x4
  | .subVy x y => formatXYN 0x8 x y 0x5
  | .shr x y => formatXYN 0x8 x y 0x6
  | .subnVy x y => formatXYN 0x8 x y 0x7
  | .shl x y => formatXYN 0x8 x y 0xE
  | .sneVy x y => formatXYN 0x9 x y 0x0
  | .ldI nnn => formatNNN 0xA nnn
  | .jpV0 nnn => formatNNN 0xB nnn
  | .rnd x kk => formatXKK 0xC x kk
  | .drw x y n => formatXYN 0xD x y (BitVec.ofNat 4 n)
  | .skp x => formatXKK 0xE x 0x9E
  | .sknp x => formatXKK 0xE x 0xA1
  | .ldVxDt x => formatXKK 0xF x 0x07
  | .ldVxK x => formatXKK 0xF x 0x0A
  | .ldDtVx x => formatXKK 0xF x 0x15
  | .ldStVx x => formatXKK 0xF x 0x18
  | .addI x => formatXKK 0xF x 0x1E
  | .ldF x => formatXKK 0xF x 0x29
  | .ldB x => formatXKK 0xF x 0x33
  | .storeRegs x => formatXKK 0xF x 0x55
  | .loadRegs x => formatXKK 0xF x 0x65

/-- The high byte of an opcode, stored at the lower address (R51). -/
def highByte (op : Word) : Byte := op.extractLsb' 8 8

/-- The low byte of an opcode, stored at the higher address (R51). -/
def lowByte (op : Word) : Byte := op.extractLsb' 0 8

/-- The bytes of an instruction as the hardware stores them, high byte first (R64). -/
def encodeBytes (i : Instr) : List Byte := [highByte (encode i), lowByte (encode i)]

/-! ### The opcode map (R75) -/

/-- One row of the opcode map: a word is the instruction of the row when `op &&& mask = pattern`. -/
structure OpcodeRow where
  number : Nat
  pattern : Word
  mask : Word
  deriving DecidableEq, Repr

/-- Rows 1 to 18 of R75. -/
def opcodeRowsLow : List OpcodeRow :=
  [⟨1, 0x00E0, 0xF0FF⟩, ⟨2, 0x00EE, 0xF0FF⟩, ⟨3, 0x1000, 0xF000⟩, ⟨4, 0x2000, 0xF000⟩,
   ⟨5, 0x3000, 0xF000⟩, ⟨6, 0x4000, 0xF000⟩, ⟨7, 0x5000, 0xF000⟩, ⟨8, 0x6000, 0xF000⟩,
   ⟨9, 0x7000, 0xF000⟩, ⟨10, 0x8000, 0xF00F⟩, ⟨11, 0x8001, 0xF00F⟩, ⟨12, 0x8002, 0xF00F⟩,
   ⟨13, 0x8003, 0xF00F⟩, ⟨14, 0x8004, 0xF00F⟩, ⟨15, 0x8005, 0xF00F⟩, ⟨16, 0x8006, 0xF00F⟩,
   ⟨17, 0x8007, 0xF00F⟩, ⟨18, 0x800E, 0xF00F⟩]

/-- Rows 19 to 34 of R75. -/
def opcodeRowsHigh : List OpcodeRow :=
  [⟨19, 0x9000, 0xF000⟩, ⟨20, 0xA000, 0xF000⟩, ⟨21, 0xB000, 0xF000⟩, ⟨22, 0xC000, 0xF000⟩,
   ⟨23, 0xD000, 0xF000⟩, ⟨24, 0xE09E, 0xF0FF⟩, ⟨25, 0xE0A1, 0xF0FF⟩, ⟨26, 0xF007, 0xF0FF⟩,
   ⟨27, 0xF00A, 0xF0FF⟩, ⟨28, 0xF015, 0xF0FF⟩, ⟨29, 0xF018, 0xF0FF⟩, ⟨30, 0xF01E, 0xF0FF⟩,
   ⟨31, 0xF029, 0xF0FF⟩, ⟨32, 0xF033, 0xF0FF⟩, ⟨33, 0xF055, 0xF0FF⟩, ⟨34, 0xF065, 0xF0FF⟩]

/-- The complete opcode map, 34 rows (R75). -/
def opcodeMap : List OpcodeRow := opcodeRowsLow ++ opcodeRowsHigh

/-- The number of an instruction's row in R75. -/
def Instr.rowNumber : Instr → Nat
  | .cls => 1
  | .ret => 2
  | .jp _ => 3
  | .call _ => 4
  | .seKk _ _ => 5
  | .sneKk _ _ => 6
  | .seVy _ _ => 7
  | .ldKk _ _ => 8
  | .addKk _ _ => 9
  | .ldVy _ _ => 10
  | .orVy _ _ => 11
  | .andVy _ _ => 12
  | .xorVy _ _ => 13
  | .addVy _ _ => 14
  | .subVy _ _ => 15
  | .shr _ _ => 16
  | .subnVy _ _ => 17
  | .shl _ _ => 18
  | .sneVy _ _ => 19
  | .ldI _ => 20
  | .jpV0 _ => 21
  | .rnd _ _ => 22
  | .drw _ _ _ => 23
  | .skp _ => 24
  | .sknp _ => 25
  | .ldVxDt _ => 26
  | .ldVxK _ => 27
  | .ldDtVx _ => 28
  | .ldStVx _ => 29
  | .addI _ => 30
  | .ldF _ => 31
  | .ldB _ => 32
  | .storeRegs _ => 33
  | .loadRegs _ => 34

/-- The bits of an opcode that the decoder reads, by the instruction it decodes to: all but op[11:8] of CLS and RET
(R70) and op[3:0] of 5xy0 and 9xy0 (R74). -/
def Instr.examinedBits : Instr → Word
  | .cls | .ret => 0xF0FF
  | .seVy _ _ | .sneVy _ _ => 0xFFF0
  | .jp _ | .call _ | .ldI _ | .jpV0 _ => 0xFFFF
  | .seKk _ _ | .sneKk _ _ | .ldKk _ _ | .addKk _ _ | .rnd _ _ => 0xFFFF
  | .ldVy _ _ | .orVy _ _ | .andVy _ _ | .xorVy _ _ | .addVy _ _ | .subVy _ _ => 0xFFFF
  | .shr _ _ | .subnVy _ _ | .shl _ _ => 0xFFFF
  | .drw _ _ _ => 0xFFFF
  | .skp _ | .sknp _ => 0xFFFF
  | .ldVxDt _ | .ldVxK _ | .ldDtVx _ | .ldStVx _ => 0xFFFF
  | .addI _ | .ldF _ | .ldB _ | .storeRegs _ | .loadRegs _ => 0xFFFF

/-! ### Reading a word as the opcode table numbers its bits -/

/-- The 16-bit opcode of a table word of `nbits` bits, the bits above `nbits` being 0. The table numbers bit 0 as the
opcode's least significant bit. -/
def tableWord (nbits w : Nat) : Word := BitVec.ofNat 16 (w % 2 ^ nbits)

/-- The instruction the decoder reads from a table word, laid out high byte first (R64); none where it decodes to
nothing. -/
def decodeTableWord (nbits w : Nat) : Option Instr :=
  match decodeBytes [highByte (tableWord nbits w), lowByte (tableWord nbits w)] with
  | .instr i => some i
  | .unknown _ => none
  | .truncated => none

end Sys2Proof
end

