-- ==== Sys2Proof/Config.lean ====
section
/-! DEFINITION. What an implementation of the block fixes (R7), and the one value the spec leaves free (R42). -/

namespace Sys2Proof

/-- MEM_SIZE: the bytes of memory, addresses 0x000 to 0xFFF (R7, R30). -/
def memSize : Nat := 4096

/-- PROG_BASE: where a program is loaded and where execution starts (R7, R154). -/
def progBase : Nat := 0x200

/-- MAX_PROG_LEN: the longest program image, 4096 − 0x200 bytes (R7, R159). -/
def maxProgLen : Nat := 3584

/-- FX0A_PRIORITY: which of several pressed keys Fx0A takes (R7, R132). -/
inductive KeyPriority where
  /-- the highest-numbered pressed key -/
  | highest
  /-- the lowest-numbered pressed key -/
  | lowest
  deriving DecidableEq, Repr

/-- The parameters the spec gives a model (R7); `Machine.hardware` holds this hardware's values. -/
structure Config where
  /-- SHR_PC_ADVANCE: how far 8xy6 advances PC, 1 or 2 (R112) -/
  shrPcAdvance : Nat
  /-- FX0A_PRIORITY (R132) -/
  fx0aPriority : KeyPriority
  /-- FONT: the fontset's bytes from address 0x000 on (R31) -/
  font : List Byte
  deriving DecidableEq, Repr

/-- The free value of the block: the byte that the n-th step receives as its `rnd` input when the host has
supplied none. R42: "The spec places no constraint on the value: the model draws it freely at each step."
No body, so nothing can be proved of a particular byte (log entry 5). -/
opaque Config.freeRnd : Nat → Byte

end Sys2Proof
end

