-- ==== Sys2Proof/Machine/Params.lean ====
section
/-! DEFINITION. The parameters' values for this hardware (R7). -/

namespace Sys2Proof.Machine

/-- Glyphs 0 to 7 of the fontset, 5 bytes each (R31). -/
def fontLow : List Byte :=
  [0xF0, 0x90, 0x90, 0x90, 0xF0,
   0x20, 0x60, 0x20, 0x20, 0x70,
   0xF0, 0x10, 0xF0, 0x80, 0xF0,
   0xF0, 0x10, 0xF0, 0x10, 0xF0,
   0x90, 0x90, 0xF0, 0x10, 0x10,
   0xF0, 0x80, 0xF0, 0x10, 0xF0,
   0xF0, 0x80, 0xF0, 0x90, 0xF0,
   0xF0, 0x10, 0x20, 0x40, 0x40]

/-- Glyphs 8 to F of the fontset, 5 bytes each (R31). -/
def fontHigh : List Byte :=
  [0xF0, 0x90, 0xF0, 0x90, 0xF0,
   0xF0, 0x90, 0xF0, 0x10, 0xF0,
   0xF0, 0x90, 0xF0, 0x90, 0x90,
   0xE0, 0x90, 0xE0, 0x90, 0xE0,
   0xF0, 0x80, 0x80, 0x80, 0xF0,
   0xE0, 0x90, 0x90, 0x90, 0xE0,
   0xF0, 0x80, 0xF0, 0x80, 0xF0,
   0xF0, 0x80, 0xF0, 0x80, 0x80]

/-- This hardware (R7): SHR_PC_ADVANCE is 2 (log entry 7), FX0A_PRIORITY is `highest` (log entry 7), FONT is the
standard set of R31 (PRESUMED by the spec, log entry 2). -/
def hardware : Config where
  shrPcAdvance := 2
  fx0aPriority := .highest
  font := fontLow ++ fontHigh

end Sys2Proof.Machine
end

