-- ==== Sys2Proof/Machine/State.lean ====
section
/-! DEFINITION. The state of the block as plain data (R39), its faults and refusals, and the state after reset (R157). -/

namespace Sys2Proof.Machine

/-- Memory as the list of its cells that differ from the reset contents: addresses strictly rising, and no cell equal
to what an unlisted address reads as (`unlistedByte`, log entry 1). `Memory.wf` says the form holds. -/
abbrev Memory := List Host.Cell

/-- The framebuffer: 32 rows of 64 pixels. Pixel (x, y), that is FB[x + 64·y], is bit x of row y (R33, log entry 3). -/
abbrev Screen := Vector (BitVec 64) 32

/-- What a step emits beside its state change (R16, R44). -/
inductive Event where
  /-- the sound timer went from 1 to 0 in this step (R87) -/
  | tone
  /-- the opcode `op` matched no instruction (R90) -/
  | decodeWarning (op : Word)
  deriving DecidableEq, Repr

/-- The causes of a fault (R138). The spec describes the entry of a fault whole (R142), so a step that raises one
answers a NEXT state with the fault registers written and the block halted; no step answers `Outcome.fault`
(log entry 6). Safe: every one halts the block where the source goes on undefined. -/
inductive Fault where
  /-- code 1, raised by 2nnn when sp = 16 before the push (R29, R96); safe -/
  | stackOverflow
  /-- code 2, raised by 00EE when sp = 0 before the pop (R29, R94); safe -/
  | stackUnderflow
  /-- code 3, raised by Dxyn with n ≥ 1, Fx33, Fx55 and Fx65 when the footprint at I reaches above 0xFFF (R55); safe -/
  | memOutOfRange
  /-- code 4, raised by the fetch when pc > 0xFFE (R56, R82); safe -/
  | fetchOutOfRange
  /-- code 5, raised by Ex9E and ExA1 when V[x] > 0xF (R129, R130); safe -/
  | keyOutOfRange
  deriving DecidableEq, Repr

/-- Why an instruction would have no meaning. No instruction of this model is refused. -/
inductive Refusal where
  /-- raised by exec for an instruction without a meaning yet; safe. No arm of exec uses it. -/
  | notModelled (mnemonic : String)
  deriving DecidableEq, Repr

/-- Everything the spec gives the block (R39), and its output and input of a step (the last three fields). -/
structure State where
  /-- V0 to VF (R20) -/
  v : Vector Byte 16
  /-- I, the index register (R26) -/
  i : Word
  /-- PC, the address of the current instruction's first byte (R23) -/
  pc : Word
  /-- SP, the number of stack entries in use, 0 to 16 (R28) -/
  sp : Fin 17
  /-- STACK[0..15], the return addresses (R27) -/
  stack : Vector Word 16
  /-- DT, the delay timer (R32) -/
  dt : Byte
  /-- ST, the sound timer (R32) -/
  st : Byte
  /-- the 4096 bytes of memory (R30) -/
  mem : Memory
  /-- FB, the framebuffer (R33) -/
  fb : Screen
  /-- draw_flag (R34) -/
  drawFlag : Bool
  /-- KEY[0..15], true for pressed (R35) -/
  key : Vector Bool 16
  /-- the current-opcode latch (R36) -/
  opcode : Word
  /-- FAULT_CODE, 0 while the block is not halted (R38) -/
  faultCode : BitVec 3
  /-- FAULT_PC (R38) -/
  faultPc : Word
  /-- FAULT_OPCODE (R38) -/
  faultOpcode : Word
  /-- FAULT_INFO (R38) -/
  faultInfo : Word
  /-- the event list of the latest step (R44, R92; log entry 4) -/
  events : List Event
  /-- the `rnd` bytes the host has supplied for the coming steps, next one first (R42; log entry 5) -/
  rndIn : List Byte
  /-- how many steps have taken their `rnd` input (log entry 5) -/
  rndCount : Nat
  deriving DecidableEq, Repr

/-- The state after reset (R157): everything zero, PC at 0x200, memory at its reset contents (so nothing is listed). -/
def State.reset : State where
  v := Vector.replicate 16 0
  i := 0
  pc := 0x200
  sp := 0
  stack := Vector.replicate 16 0
  dt := 0
  st := 0
  mem := []
  fb := Vector.replicate 32 0
  drawFlag := false
  key := Vector.replicate 16 false
  opcode := 0
  faultCode := 0
  faultPc := 0
  faultOpcode := 0
  faultInfo := 0
  events := []
  rndIn := []
  rndCount := 0

end Sys2Proof.Machine
end

