-- ==== Sys2Proof/Machine/Ops.lean ====
section
/-! DEFINITION. The named operations over memory, registers, stack, framebuffer and keys, and fault entry. -/

namespace Sys2Proof.Machine

/-- The outcome of an instruction or a step. -/
abbrev Result := Host.Outcome State Fault Refusal

/-! ### Memory (R14, R30, R48) -/

/-- What an address without a listed cell reads as: its reset contents, the fontset from 0x000 on and 0 elsewhere
(R30, R31, log entry 1). -/
def unlistedByte (a : Nat) : Byte := hardware.font.getD a 0

/-- The byte at address `a`: MemRead (R14). -/
def Memory.read : Memory → Nat → Byte
  | [], a => unlistedByte a
  | c :: m, a => if c.1 = a then c.2 else Memory.read m a

/-- Drops the listed cell of address `a`, if any. -/
def Memory.unlist (m : Memory) (a : Nat) : Memory := m.filter fun c => c.1 != a

/-- Lists a cell before the first one with a larger address. -/
def Memory.enlist : Memory → Nat → Byte → Memory
  | [], a, b => [(a, b)]
  | c :: m, a, b => if a < c.1 then (a, b) :: c :: m else c :: Memory.enlist m a b

/-- Stores byte `b` at address `a`: MemWrite (R14). A byte equal to the reset contents is not listed, so that equal
memories are equal lists. -/
def Memory.write (m : Memory) (a : Nat) (b : Byte) : Memory :=
  if b = unlistedByte a then m.unlist a else (m.unlist a).enlist a b

/-- Stores bytes at `a`, `a + 1`, ... in ascending order (R52). -/
def Memory.writeBytes : Memory → Nat → List Byte → Memory
  | m, _, [] => m
  | m, a, b :: bs => Memory.writeBytes (m.write a b) (a + 1) bs

/-- The canonical form of memory: addresses strictly rising, each inside memory (R30), and no cell equal to what an
unlisted address reads as. -/
abbrev Memory.wf (m : Memory) : Prop :=
  m.Pairwise (fun c d => c.1 < d.1) ∧ ∀ c ∈ m, c.1 < memSize ∧ c.2 ≠ unlistedByte c.1

/-- MemRead of the state's memory (R14). -/
def State.memRead (s : State) (a : Nat) : Byte := s.mem.read a

/-- MemWrite of consecutive bytes of the state's memory (R14, R52). -/
def State.memWrite (s : State) (a : Nat) (bs : List Byte) : State := { s with mem := s.mem.writeBytes a bs }

/-! ### Registers (R13, R20, R23, R26, R32) -/

/-- V[r] (R13). -/
def State.readV (s : State) (r : Reg) : Byte := s.v.get r

/-- V[r] ← b (R13). -/
def State.writeV (s : State) (r : Reg) (b : Byte) : State := { s with v := s.v.set r.val b r.isLt }

/-- VF ← 1 if the flag holds, else 0 (R21, R37). -/
def State.writeFlag (s : State) (flag : Bool) : State := s.writeV .vf (if flag then 1 else 0)

/-- V0..Vx ← the given byte of each register number; the registers above Vx keep their value (R123). -/
def State.loadV (s : State) (x : Reg) (b : Reg → Byte) : State :=
  { s with v := Vector.ofFn fun r => if r ≤ x then b r else s.readV r }

/-- pc ← target (R13). -/
def State.setPc (s : State) (target : Word) : State := { s with pc := target }

/-- pc ← pc + k, modulo 2^16 (R25, R86). -/
def State.advance (s : State) (k : Nat) : State := { s with pc := s.pc + BitVec.ofNat 16 k }

/-- I ← a (R13). -/
def State.setI (s : State) (a : Word) : State := { s with i := a }

/-- DT ← b (R13, R133). -/
def State.setDt (s : State) (b : Byte) : State := { s with dt := b }

/-- ST ← b (R13, R134). -/
def State.setSt (s : State) (b : Byte) : State := { s with st := b }

/-- The byte the running step has received as its `rnd` input (R17, R42): the next one the host has supplied, else
the free value of this step's number (log entry 5). -/
def State.rndByte (s : State) : Byte :=
  match s.rndIn with
  | b :: _ => b
  | [] => Config.freeRnd s.rndCount

/-! ### Keys (R35) -/

/-- KEY[k] (R13). -/
def State.keyDown (s : State) (k : Reg) : Bool := s.key.get k

/-- The pressed keys, in ascending order (R132). -/
def State.pressedKeys (s : State) : List Reg := (List.finRange 16).filter s.keyDown

/-! ### Framebuffer (R33) -/

/-- Pixel (x, y) of a screen, the coordinates taken modulo 64 and 32 (R33, R127). -/
def Screen.pixel (f : Screen) (x y : Nat) : Bool := (f.get (Fin.ofNat 32 y)).getLsbD (x % 64)

/-- Pixel (x, y) xor 1, the coordinates taken modulo 64 and 32 (R126, R127). -/
def Screen.flip (f : Screen) (x y : Nat) : Screen :=
  f.set (Fin.ofNat 32 y).val (f.get (Fin.ofNat 32 y) ^^^ BitVec.twoPow 64 (x % 64)) (Fin.ofNat 32 y).isLt

/-- Every pixel 0 (R125). -/
def Screen.clear : Screen := Vector.replicate 32 0

/-- FB[idx], idx = x + 64·y (R33). -/
def State.pixelAt (s : State) (idx : Nat) : Bool := s.fb.pixel (idx % 64) (idx / 64)

/-! ### Faults (R15, R138, R141 to R143) -/

/-- FAULT_CODE's value for a cause (R138). -/
def Fault.code : Fault → BitVec 3
  | .stackOverflow => 1
  | .stackUnderflow => 2
  | .memOutOfRange => 3
  | .fetchOutOfRange => 4
  | .keyOutOfRange => 5

/-- The block is halted while FAULT_CODE is not 0 (R38, R143). -/
abbrev State.halted (s : State) : Prop := s.faultCode ≠ 0

/-- FAULT_OPCODE's value for a cause: the opcode of the step, which the latch holds while an instruction executes,
and 0 for FETCH_OUT_OF_RANGE, where nothing was fetched (R138, R142). -/
def State.opcodeFor (s : State) : Fault → Word
  | .fetchOutOfRange => 0
  | .stackOverflow | .stackUnderflow | .memOutOfRange | .keyOutOfRange => s.opcode

/-- Fault entry (R142), the one shared operation: FAULT_CODE names the cause, FAULT_PC saves the pc, FAULT_OPCODE the
opcode, FAULT_INFO the cause's information. Control goes nowhere. There is no return: no instruction leaves the halt
(R145), and `hostReset` is the only exit (R143). -/
def State.takeFault (s : State) (f : Fault) (info : Word) : State :=
  { s with faultCode := f.code, faultPc := s.pc, faultOpcode := s.opcodeFor f, faultInfo := info }

/-- `raise Fault(code, info)` (R15): fault entry in the state as it was, with none of the instruction's writes. -/
def raise (f : Fault) (info : Word) (s : State) : Result := .next (s.takeFault f info)

/-- Whether `len` bytes from address `a` on reach above 0xFFF; the sum is not truncated (R14, R55). -/
def rangeFaults (a : Word) (len : Nat) : Bool := decide (1 ≤ len ∧ 0xFFF < a.toNat + len - 1)

/-- CheckRange(I, len) before an access of that footprint (R14, R55). -/
def checkRange (s : State) (len : Nat) (body : Result) : Result :=
  if rangeFaults s.i len then raise .memOutOfRange s.i s else body

/-! ### The call stack (R27 to R29) -/

/-- STACK[j] (R13). -/
def State.stackAt (s : State) (j : Fin 16) : Word := s.stack.get j

/-- SP as the 16-bit information of a stack fault (R38). -/
def State.spWord (s : State) : Word := BitVec.ofNat 16 s.sp.val

/-- `push(w)`, then the rest of the instruction (R29). -/
def push (s : State) (w : Word) (k : State → Result) : Result :=
  if h : s.sp.val < 16 then
    k { s with stack := s.stack.set s.sp.val w h, sp := ⟨s.sp.val + 1, by omega⟩ }
  else raise .stackOverflow s.spWord s

/-- `pop()`, then the rest of the instruction on the popped value; the entry read stays (R29). -/
def pop (s : State) (k : Word → State → Result) : Result :=
  if s.sp.val = 0 then raise .stackUnderflow s.spWord s
  else k (s.stackAt ⟨s.sp.val - 1, by omega⟩) { s with sp := ⟨s.sp.val - 1, by omega⟩ }

/-! ### Reset (R157) -/

/-- The host operation `reset()`, the only exit from a halt (R143, R157). It sets every state of the block. The
random-byte source is no state of the block (R47), so the host's supply of `rnd` bytes is kept (log entry 5). -/
def hostReset (s : State) : State := { State.reset with rndIn := s.rndIn, rndCount := s.rndCount }

end Sys2Proof.Machine
end

