-- ==== Sys2Proof/Machine/Operands.lean ====
section
/-! DEFINITION. The operand forms: immediates, register operands, the key operand, BCD digits, sprite bits. -/

namespace Sys2Proof.Machine

/-- `zext_16(nnn)`: the address immediate as a 16-bit value (R67). -/
def zextAddr (nnn : Addr) : Word := nnn.setWidth 16

/-- A register's value as a 16-bit value, zero-extended (R11, R101, R119). -/
def zextByte (b : Byte) : Word := b.setWidth 16

/-- I + V[x] on unbounded integers (R119). -/
def State.indexSum (s : State) (x : Reg) : Nat := s.i.toNat + (s.readV x).toNat

/-- The footprint of Fx55 and Fx65: V0..Vx, so x + 1 bytes (R68). -/
def regCount (x : Reg) : Nat := x.val + 1

/-- The bytes V0..Vx in ascending order (R52, R122). -/
def State.firstRegs (s : State) (x : Reg) : List Byte := s.v.toList.take (regCount x)

/-- The decimal digits of a byte, hundreds, tens, units (R121). -/
def bcdDigits (b : Byte) : List Byte :=
  [BitVec.ofNat 8 (b.toNat / 100), BitVec.ofNat 8 (b.toNat / 10 % 10), BitVec.ofNat 8 (b.toNat % 10)]

/-- The key number held in V[x], then the rest of the instruction; above 0xF the step faults (R129, R130). -/
def withKey (s : State) (x : Reg) (k : Reg → Result) : Result :=
  if h : (s.readV x).toNat < 16 then k ⟨(s.readV x).toNat, h⟩
  else raise .keyOutOfRange (zextByte (s.readV x)) s

/-- The key Fx0A takes among the pressed ones, if any is pressed (R132): by FX0A_PRIORITY, the last or the first
match of an ascending scan. -/
def chosenKey (p : KeyPriority) (pressed : List Reg) : Option Reg :=
  match p with
  | .highest => pressed.getLast?
  | .lowest => pressed.head?

/-- Bit c of a sprite row from the left: bit 7 is the leftmost pixel (R126). -/
def spriteBit (row : Byte) (c : Nat) : Bool := row.getLsbD (7 - c)

end Sys2Proof.Machine
end

