-- ==== Sys2Proof/Machine/Cycle.lean ====
section
/-! DEFINITION. The parts of a step around the instruction: fetch, latch, DecodeWarning, Tone, tick, and the drop of a
faulting step's effects (spec/40_step_cycle.md). Machine/Step.lean puts them together with exec. -/

namespace Sys2Proof.Machine

/-- pc > 0xFFE: the opcode's low byte would lie outside memory (R82). -/
def State.fetchFaults (s : State) : Bool := decide (0xFFE < s.pc.toNat)

/-- The opcode at pc, high byte first (R51, R82). -/
def State.fetchWord (s : State) : Word :=
  opcodeOfBytes (s.memRead s.pc.toNat) (s.memRead (s.pc.toNat + 1))

/-- The step has fetched `op`: the latch holds it and no event is emitted yet (R36, R81). -/
def State.latched (s : State) (op : Word) : State := { s with opcode := op, events := [] }

/-- `emit` (R16). -/
def State.emit (s : State) (e : Event) : State := { s with events := s.events ++ [e] }

/-- One timer's decrement: a timer at 0 stays at 0 (R88). -/
def countDown (b : Byte) : Byte := if b = 0 then 0 else b - 1

/-- Tone if and only if ST = 1 before the decrement (R87). -/
def State.soundTone (s : State) : State := if s.st = 1 then s.emit .tone else s

/-- The timer tick: Tone, then both decrements (R87, R88). -/
def State.tick (s : State) : State :=
  { s.soundTone with dt := countDown s.dt, st := countDown s.st }

/-- The step has taken its `rnd` input, used or not (R42, log entry 5). -/
def State.takeInput (s : State) : State := { s with rndIn := s.rndIn.tail, rndCount := s.rndCount + 1 }

/-- A step of a halted block: no state changes and no event is emitted (R83). -/
def State.idle (s : State) : State := { s with events := [] }.takeInput

/-- The end of a step from `s` that raised the fault recorded in `t`: only the fault registers are written; the
latch, the instruction's writes, the events and the tick are dropped (R15, R81, R142). -/
def State.abandon (s t : State) : State :=
  { s with faultCode := t.faultCode, faultPc := t.faultPc, faultOpcode := t.faultOpcode,
           faultInfo := t.faultInfo, events := [] }.takeInput

/-- The end of a step from `s` whose instruction answered `r`. -/
def closeStep (s : State) (r : Result) : Result :=
  match r with
  | .next t => if t.halted then .next (s.abandon t) else .next t.tick.takeInput
  | .fault f => .fault f
  | .refused f => .refused f

/-- An Unknown opcode emits DecodeWarning and changes nothing else (R90). -/
def warnUnknown (op : Word) (s : State) : Result := .next (s.emit (.decodeWarning op))

/-- The decoded opcode executed by `run`, or the warning (R81). A fetched opcode has two bytes, so decoding never
answers `truncated`; that arm warns as well. -/
def runDecoded (run : Instr → State → Result) (op : Word) (s : State) : Result :=
  match decode op with
  | .instr i => run i s
  | .unknown _ => warnUnknown op s
  | .truncated => warnUnknown op s

/-- One step (R81), for a given meaning of the instructions. -/
def stepWith (run : Instr → State → Result) (s : State) : Result :=
  if s.halted then .next s.idle
  else if s.fetchFaults then .next (s.abandon (s.takeFault .fetchOutOfRange s.pc))
  else closeStep s (runDecoded run s.fetchWord (s.latched s.fetchWord))

/-- `s` able to fetch: not halted, and pc where two bytes can be read (log entry 13). -/
def State.readyToFetch (s : State) : State :=
  { s with faultCode := 0, pc := if s.fetchFaults then BitVec.ofNat 16 progBase else s.pc }

/-- `s` with the opcode `op` stored at pc, high byte first (R51). -/
def State.withOpcode (s : State) (op : Word) : State := s.memWrite s.pc.toNat [highByte op, lowByte op]

end Sys2Proof.Machine
end

