-- ==== Sys2Proof/Machine/Flags.lean ====
section
/-! DEFINITION. The values VF takes as a flag, one computation per row of R37 (the collision flag is the blit's,
Machine/Display.lean). -/

namespace Sys2Proof.Machine

/-- 8xy4: the exact sum exceeds 255 (R110, R37). -/
def carryOut (a b : Byte) : Bool := decide (255 < a.toNat + b.toNat)

/-- 8xy5 with a = V[x], b = V[y], and 8xy7 the other way round: strictly greater (R111, R113, R37). -/
def strictlyGreater (a b : Byte) : Bool := decide (b.toNat < a.toNat)

/-- 8xy6: bit 0 before the shift (R112, R37). -/
def shiftedOutRight (a : Byte) : Bool := a.getLsbD 0

/-- 8xyE: bit 7 before the shift (R114, R37). -/
def shiftedOutLeft (a : Byte) : Bool := a.getLsbD 7

/-- Fx1E: the untruncated sum exceeds 0xFFF (R119, R37). -/
def indexOverflow (sum : Nat) : Bool := decide (0xFFF < sum)

end Sys2Proof.Machine
end

