-- ==== Sys2Proof/Machine/Alu.lean ====
section
/-! DEFINITION. Register loads and arithmetic (spec/42_alu.md). Operands are read from the state before the
instruction, and a flag is the last register write (R85, R21). -/

namespace Sys2Proof.Machine

/-- V[x] ← r, pc ← pc + 2, no flag. -/
def aluPlain (s : State) (x : Reg) (r : Byte) : Result := .next ((s.writeV x r).advance 2)

/-- V[x] ← r, then VF ← flag, pc ← pc + k (R21). -/
def aluFlag (s : State) (x : Reg) (r : Byte) (flag : Bool) (k : Nat) : Result :=
  .next (((s.writeV x r).writeFlag flag).advance k)

/-- 6xkk LD Vx, kk (R104). -/
def execLdKk (x : Reg) (kk : Byte) (s : State) : Result := aluPlain s x kk

/-- 7xkk ADD Vx, kk (R105): wraps, no flag. -/
def execAddKk (x : Reg) (kk : Byte) (s : State) : Result := aluPlain s x (s.readV x + kk)

/-- 8xy0 LD Vx, Vy (R106). -/
def execLdVy (x y : Reg) (s : State) : Result := aluPlain s x (s.readV y)

/-- 8xy1 OR Vx, Vy (R107). -/
def execOrVy (x y : Reg) (s : State) : Result := aluPlain s x (s.readV x ||| s.readV y)

/-- 8xy2 AND Vx, Vy (R108). -/
def execAndVy (x y : Reg) (s : State) : Result := aluPlain s x (s.readV x &&& s.readV y)

/-- 8xy3 XOR Vx, Vy (R109). -/
def execXorVy (x y : Reg) (s : State) : Result := aluPlain s x (s.readV x ^^^ s.readV y)

/-- 8xy4 ADD Vx, Vy (R110): VF = carry. -/
def execAddVy (x y : Reg) (s : State) : Result :=
  aluFlag s x (s.readV x + s.readV y) (carryOut (s.readV x) (s.readV y)) 2

/-- 8xy5 SUB Vx, Vy (R111): VF = V[x] > V[y]. -/
def execSubVy (x y : Reg) (s : State) : Result :=
  aluFlag s x (s.readV x - s.readV y) (strictlyGreater (s.readV x) (s.readV y)) 2

/-- 8xy6 SHR Vx (R112): y is ignored; pc advances by SHR_PC_ADVANCE. -/
def execShr (x _y : Reg) (s : State) : Result :=
  aluFlag s x (s.readV x >>> 1) (shiftedOutRight (s.readV x)) hardware.shrPcAdvance

/-- 8xy7 SUBN Vx, Vy (R113): VF = V[y] > V[x]. -/
def execSubnVy (x y : Reg) (s : State) : Result :=
  aluFlag s x (s.readV y - s.readV x) (strictlyGreater (s.readV y) (s.readV x)) 2

/-- 8xyE SHL Vx (R114): y is ignored. -/
def execShl (x _y : Reg) (s : State) : Result :=
  aluFlag s x (s.readV x <<< 1) (shiftedOutLeft (s.readV x)) 2

/-- Cxkk RND Vx, kk (R115): the step's random byte under a mask. -/
def execRnd (x : Reg) (kk : Byte) (s : State) : Result := aluPlain s x (s.rndByte &&& kk)

end Sys2Proof.Machine
end

