-- ==== Sys2Proof/Machine/ControlFlow.lean ====
section
/-! DEFINITION. Control transfer: RET, JP, CALL, the skips on register values, JP V0 (spec/41_flow.md). -/

namespace Sys2Proof.Machine

/-- pc + 4 if the condition holds, else pc + 2 (R24, R97). -/
def skipIf (s : State) (c : Bool) : Result := .next (s.advance (if c then 4 else 2))

/-- 00EE RET (R94): the popped value is the address of the CALL, so 2 is added. -/
def execRet (s : State) : Result := pop s fun t s' => .next (s'.setPc (t + 2))

/-- 1nnn JP (R95). -/
def execJp (nnn : Addr) (s : State) : Result := .next (s.setPc (zextAddr nnn))

/-- 2nnn CALL (R96): the CALL's own address is pushed. -/
def execCall (nnn : Addr) (s : State) : Result := push s s.pc fun s' => .next (s'.setPc (zextAddr nnn))

/-- 3xkk SE Vx, kk (R97). -/
def execSeKk (x : Reg) (kk : Byte) (s : State) : Result := skipIf s (s.readV x == kk)

/-- 4xkk SNE Vx, kk (R98). -/
def execSneKk (x : Reg) (kk : Byte) (s : State) : Result := skipIf s (s.readV x != kk)

/-- 5xy0 SE Vx, Vy (R99). -/
def execSeVy (x y : Reg) (s : State) : Result := skipIf s (s.readV x == s.readV y)

/-- 9xy0 SNE Vx, Vy (R100). -/
def execSneVy (x y : Reg) (s : State) : Result := skipIf s (s.readV x != s.readV y)

/-- Bnnn JP V0, nnn (R101): the sum is not masked to 12 bits. -/
def execJpV0 (nnn : Addr) (s : State) : Result := .next (s.setPc (zextAddr nnn + zextByte (s.readV 0)))

end Sys2Proof.Machine
end

