-- ==== Sys2Proof/Machine/Display.lean ====
section
/-! DEFINITION. The framebuffer instructions and the XOR-blit engine (spec/44_display.md). -/

namespace Sys2Proof.Machine

/-- The blit's running result: the screen so far, and whether some pixel has gone from 1 to 0. -/
structure Blit where
  screen : Screen
  hit : Bool
  deriving DecidableEq, Repr

/-- One 1 bit of the sprite: it flips its pixel, and hits if the pixel was 1 (R126). -/
def blitPixel (p : Blit) (px py : Nat) : Blit :=
  ⟨p.screen.flip px py, p.hit || p.screen.pixel px py⟩

/-- One sprite row drawn from column `cx` in screen row `py`, columns 0 to 7 (R126). -/
def blitRow (row : Byte) (cx py : Nat) (p : Blit) : Blit :=
  (List.range 8).foldl (fun q c => if spriteBit row c then blitPixel q (cx + c) py else q) p

/-- `n` sprite rows drawn at (cx, cy), row r from `rows r` (R126). Coordinates wrap per pixel (R127). -/
def blit (rows : Nat → Byte) (cx cy n : Nat) (p : Blit) : Blit :=
  (List.range n).foldl (fun q r => blitRow (rows r) cx (cy + r) q) p

/-- The blit that Dxyn performs: `n` rows from address I on, drawn at (V[x], V[y]) on the screen as it is (R126). -/
def State.sprite (s : State) (x y : Reg) (n : Nat) : Blit :=
  blit (fun r => s.memRead (s.i.toNat + r)) (s.readV x).toNat (s.readV y).toNat n ⟨s.fb, false⟩

/-- FB ← the given screen (R13). -/
def State.setScreen (s : State) (f : Screen) : State := { s with fb := f }

/-- draw_flag ← 1 (R34, R126). -/
def State.raiseDrawFlag (s : State) : State := { s with drawFlag := true }

/-- 00E0 CLS (R125): neither VF nor draw_flag is written. -/
def execCls (s : State) : Result := .next ((s.setScreen Screen.clear).advance 2)

/-- Dxyn DRW Vx, Vy, n (R126): VF = collision, the last register write; n = 0 reads no memory and draws nothing. -/
def execDrw (x y : Reg) (n : Nat) (s : State) : Result :=
  checkRange s n
    (.next ((((s.setScreen (s.sprite x y n).screen).writeFlag (s.sprite x y n).hit).raiseDrawFlag).advance 2))

end Sys2Proof.Machine
end

