-- ==== Sys2Proof/Machine/IndexMemory.lean ====
section
/-! DEFINITION. The index register and the memory transfers (spec/43_index_memory.md). Every footprint is checked
before the first access (R14, R55). -/

namespace Sys2Proof.Machine

/-- Annn LD I, nnn (R118). -/
def execLdI (nnn : Addr) (s : State) : Result := .next ((s.setI (zextAddr nnn)).advance 2)

/-- Fx1E ADD I, Vx (R119): the flag compares the untruncated sum. -/
def execAddI (x : Reg) (s : State) : Result :=
  .next (((s.setI (BitVec.ofNat 16 (s.indexSum x))).writeFlag (indexOverflow (s.indexSum x))).advance 2)

/-- Fx29 LD F, Vx (R120): V[x] is not masked. -/
def execLdF (x : Reg) (s : State) : Result := .next ((s.setI (zextByte (s.readV x) * 5)).advance 2)

/-- Fx33 LD B, Vx (R121). -/
def execLdB (x : Reg) (s : State) : Result :=
  checkRange s 3 (.next ((s.memWrite s.i.toNat (bcdDigits (s.readV x))).advance 2))

/-- I ← I + x + 1 modulo 2^16, pc ← pc + 2: the end of Fx55 and Fx65 (R122, R123). -/
def State.pastRegs (s : State) (x : Reg) : State := (s.setI (s.i + BitVec.ofNat 16 (regCount x))).advance 2

/-- Fx55 LD [I], Vx (R122). -/
def execStoreRegs (x : Reg) (s : State) : Result :=
  checkRange s (regCount x) (.next ((s.memWrite s.i.toNat (s.firstRegs x)).pastRegs x))

/-- Fx65 LD Vx, [I] (R123). -/
def execLoadRegs (x : Reg) (s : State) : Result :=
  checkRange s (regCount x) (.next ((s.loadV x fun r => s.memRead (s.i.toNat + r.val)).pastRegs x))

end Sys2Proof.Machine
end

