-- ==== Sys2Proof/Machine/KeysTimers.lean ====
section
/-! DEFINITION. The key and timer instructions (spec/45_timers_keys.md). The tick that ends the step is
Machine/Cycle.lean's. -/

namespace Sys2Proof.Machine

/-- Ex9E SKP Vx (R129). -/
def execSkp (x : Reg) (s : State) : Result := withKey s x fun k => skipIf s (s.keyDown k)

/-- ExA1 SKNP Vx (R130). -/
def execSknp (x : Reg) (s : State) : Result := withKey s x fun k => skipIf s (!s.keyDown k)

/-- Fx07 LD Vx, DT (R131): DT before this step's tick. -/
def execLdVxDt (x : Reg) (s : State) : Result := .next ((s.writeV x s.dt).advance 2)

/-- A key number as the byte that Fx0A writes (R132). -/
def keyByte (k : Reg) : Byte := BitVec.ofNat 8 k.val

/-- Fx0A LD Vx, K (R132): with no key pressed nothing is written and pc stays. -/
def execLdVxK (x : Reg) (s : State) : Result :=
  match chosenKey hardware.fx0aPriority s.pressedKeys with
  | none => .next s
  | some k => .next ((s.writeV x (keyByte k)).advance 2)

/-- Fx15 LD DT, Vx (R133). -/
def execLdDtVx (x : Reg) (s : State) : Result := .next ((s.setDt (s.readV x)).advance 2)

/-- Fx18 LD ST, Vx (R134). -/
def execLdStVx (x : Reg) (s : State) : Result := .next ((s.setSt (s.readV x)).advance 2)

end Sys2Proof.Machine
end

