-- ==== Sys2Proof/Machine/Step.lean ====
section
/-! DEFINITION. One step of the block (R81). -/

namespace Sys2Proof.Machine

/-- `step`: one fetch-decode-execute cycle and the timer tick (R81). -/
def step (s : State) : Host.Outcome State Fault Refusal := stepWith exec s

/-- `s` with the table word stored where `step` fetches its next instruction: at pc, high byte first. A halted or
out-of-range `s` is made able to fetch first, so that the very next step runs the word (log entry 13). -/
def State.withFetchWord (s : State) (nbits w : Nat) : State := s.readyToFetch.withOpcode (tableWord nbits w)

end Sys2Proof.Machine
end

