-- ==== Sys2Proof/Machine/HostOps.lean ====
section
/-! DEFINITION. The host operations (R40 to R45, R157 to R161). Each is atomic and falls between steps. -/

namespace Sys2Proof.Machine

/-- `load_program(bytes)` (R159): an image longer than 3584 bytes is LoadError, `none`, and changes nothing (R160);
otherwise a reset and the copy to 0x200. -/
def loadProgram (bytes : List Byte) (s : State) : Option State :=
  if maxProgLen < bytes.length then none else some ((hostReset s).memWrite progBase bytes)

/-- `key_write(k, v)`: KEY[k] ← v (R41). -/
def keyWrite (k : Reg) (v : Bool) (s : State) : State := { s with key := s.key.set k.val v k.isLt }

/-- `draw_flag_clear` (R43). -/
def drawFlagClear (s : State) : State := { s with drawFlag := false }

/-- `fb_read`: the 2048 pixels FB[0..2047] (R43). -/
def fbRead (s : State) : List Bool := (List.range 2048).map s.pixelAt

/-- The host supplies the `rnd` input of the next step (R42). -/
def supplyRnd (rnd : Byte) (s : State) : State := { s with rndIn := rnd :: s.rndIn }

/-- The operations a host can call (R40). -/
inductive HostOp where
  | reset
  | loadProgram (bytes : List Byte)
  | step (rnd : Byte)
  | keyWrite (k : Reg) (v : Bool)
  | fbRead
  | drawFlagRead
  | drawFlagClear
  | statusRead
  deriving DecidableEq, Repr

/-- What an operation returns to the host (R43, R44). -/
inductive HostAnswer where
  /-- nothing is returned -/
  | done
  /-- `load_program` accepted the image -/
  | loaded
  /-- `load_program` refused the image (R140, R160) -/
  | loadError
  /-- the event list of a step (R92) -/
  | events (es : List Event)
  /-- the pixels, row-major (R43) -/
  | pixels (ps : List Bool)
  /-- draw_flag -/
  | flag (b : Bool)
  /-- FAULT_CODE, FAULT_PC, FAULT_OPCODE, FAULT_INFO (R44) -/
  | status (code : BitVec 3) (pc opcode info : Word)
  /-- the step stopped; no step of this model does (log entry 6) -/
  | stopped
  deriving DecidableEq, Repr

/-- `step(rnd)` as the host calls it: the state after it and the events it returns (R40, R92). -/
def hostStep (rnd : Byte) (s : State) : State × HostAnswer :=
  match step (supplyRnd rnd s) with
  | .next t => (t, .events t.events)
  | .fault _ => (s, .stopped)
  | .refused _ => (s, .stopped)

/-- `load_program` as the host calls it: on LoadError the state stays as it was (R160). -/
def hostLoad (bytes : List Byte) (s : State) : State × HostAnswer :=
  match loadProgram bytes s with
  | some t => (t, .loaded)
  | none => (s, .loadError)

/-- One host operation: the state after it and its answer (R40). -/
def hostOp (op : HostOp) (s : State) : State × HostAnswer :=
  match op with
  | .reset => (hostReset s, .done)
  | .loadProgram bytes => hostLoad bytes s
  | .step rnd => hostStep rnd s
  | .keyWrite k v => (keyWrite k v s, .done)
  | .fbRead => (s, .pixels (fbRead s))
  | .drawFlagRead => (s, .flag s.drawFlag)
  | .drawFlagClear => (drawFlagClear s, .done)
  | .statusRead => (s, .status s.faultCode s.faultPc s.faultOpcode s.faultInfo)

/-- A sequence of host operations, none overlapping another (R40): the state after it and the answers in order. -/
def hostRun : List HostOp → State → State × List HostAnswer
  | [], s => (s, [])
  | op :: ops, s => ((hostRun ops (hostOp op s).1).1, (hostOp op s).2 :: (hostRun ops (hostOp op s).1).2)

end Sys2Proof.Machine
end

