-- ==== Sys2Proof/Safety.lean ====
section
/-! DEFINITION. The terms claims use: fault outcomes and safe runs, the parts of the state and frames over them, what a
fault entry leaves, the fault table, and the invariant of the block. -/

namespace Sys2Proof.Machine

/-! ### Fault outcomes and safe runs (R143, D29) -/

/-- The cause that FAULT_CODE records; none at 0, and none at 6 and 7, which are never written (R38, R138). -/
def State.faultCause (s : State) : Option Fault :=
  match s.faultCode.toNat with
  | 1 => some .stackOverflow
  | 2 => some .stackUnderflow
  | 3 => some .memOutOfRange
  | 4 => some .fetchOutOfRange
  | 5 => some .keyOutOfRange
  | _ => none

/-- How a claim reads the end of a run: a halted block is a fault outcome, never a normal end (R143, log entry 6). -/
def State.verdict (s : State) : Result :=
  match s.faultCause with
  | some f => .fault f
  | none => .next s

/-- `n` steps from `s` never halt the block. -/
def SafeFor (n : Nat) (s : State) : Prop :=
  ∀ k ≤ n, ∃ t, Host.Core.run Sys2Proof.core k s = .next t ∧ ¬ State.halted t

/-- The next instruction is a jump to its own address, the end of a test program (D29, R80). -/
def State.atHaltJump (s : State) : Prop :=
  ¬ s.halted ∧ s.pc.toNat ≤ 0xFFE ∧ ∃ nnn : Addr, decode s.fetchWord = .instr (.jp nnn) ∧ nnn.toNat = s.pc.toNat

/-! ### Parts of the state, and frames -/

/-- The parts of the state that a frame speaks of; PC is stated on its own. -/
inductive Part where
  /-- V[r] -/
  | v (r : Reg)
  /-- I -/
  | index
  /-- SP -/
  | depth
  /-- STACK[j] -/
  | entry (j : Fin 16)
  /-- DT -/
  | delay
  /-- ST -/
  | sound
  /-- the byte of memory at address `a` -/
  | byte (a : Nat)
  /-- FB[idx] -/
  | pixel (idx : Nat)
  /-- draw_flag -/
  | drawFlag
  /-- KEY[k] -/
  | key (k : Reg)
  /-- the opcode latch -/
  | latch
  /-- FAULT_CODE, FAULT_PC, FAULT_OPCODE, FAULT_INFO -/
  | faultRegs
  /-- the event list of the step -/
  | events
  /-- the `rnd` input: what the host has supplied, and the count -/
  | input
  deriving DecidableEq, Repr

/-- Part `p` is the same in `t` as in `s`. -/
def Part.same (s t : State) : Part → Prop
  | .v r => t.readV r = s.readV r
  | .index => t.i = s.i
  | .depth => t.sp = s.sp
  | .entry j => t.stackAt j = s.stackAt j
  | .delay => t.dt = s.dt
  | .sound => t.st = s.st
  | .byte a => t.memRead a = s.memRead a
  | .pixel idx => t.pixelAt idx = s.pixelAt idx
  | .drawFlag => t.drawFlag = s.drawFlag
  | .key k => t.keyDown k = s.keyDown k
  | .latch => t.opcode = s.opcode
  | .faultRegs => t.faultCode = s.faultCode ∧ t.faultPc = s.faultPc ∧ t.faultOpcode = s.faultOpcode ∧
      t.faultInfo = s.faultInfo
  | .events => t.events = s.events
  | .input => t.rndIn = s.rndIn ∧ t.rndCount = s.rndCount

/-- The frame: every part outside `may` is the same in `t` as in `s`. -/
def Frame (may : Part → Prop) (s t : State) : Prop := ∀ p, ¬ may p → p.same s t

/-- The bytes of memory at `a` to `a + len - 1`. -/
def bytesAt (a len : Nat) : Part → Prop
  | .byte b => a ≤ b ∧ b < a + len
  | _ => False

/-- Every pixel of the framebuffer. -/
def anyPixel : Part → Prop
  | .pixel _ => True
  | _ => False

/-- The registers V0 to Vx. -/
def regsUpTo (x : Reg) : Part → Prop
  | .v r => r ≤ x
  | _ => False

/-! ### Encodings and faults, as the instruction rules write them -/

/-- Every word that matches the row decodes to the row's instruction with the word's fields (R75, R84). -/
def MatchDecodes (mask pattern : Word) (i : Word → Instr) : Prop :=
  ∀ op : Word, op &&& mask = pattern → decode op = .instr (i op)

/-- Executing `i` in `s` enters the fault with this code and information, and does nothing else (R142). -/
def Raises (i : Instr) (s : State) (code : BitVec 3) (info : Word) : Prop :=
  ∃ t, exec i s = .next t ∧ t.faultCode = code ∧ t.faultPc = s.pc ∧ t.faultOpcode = s.opcode ∧ t.faultInfo = info ∧
    t.pc = s.pc ∧ Frame (fun p => p = .faultRegs) s t

end Sys2Proof.Machine

namespace Sys2Proof

/-- The data footprint of an instruction at I, in bytes (R50, R138). -/
def Instr.footprint : Instr → Nat
  | .drw _ _ n => n
  | .ldB _ => 3
  | .storeRegs x | .loadRegs x => x.val + 1
  | .cls | .ret | .jp _ | .call _ | .ldI _ | .jpV0 _ => 0
  | .seKk _ _ | .sneKk _ _ | .ldKk _ _ | .addKk _ _ | .rnd _ _ | .seVy _ _ | .sneVy _ _ => 0
  | .ldVy _ _ | .orVy _ _ | .andVy _ _ | .xorVy _ _ | .addVy _ _ | .subVy _ _ => 0
  | .shr _ _ | .subnVy _ _ | .shl _ _ | .skp _ | .sknp _ => 0
  | .ldVxDt _ | .ldVxK _ | .ldDtVx _ | .ldStVx _ | .addI _ | .ldF _ => 0

/-- The key register of a key skip. -/
def Instr.keyReg : Instr → Option Reg
  | .skp x | .sknp x => some x
  | .cls | .ret | .jp _ | .call _ | .ldI _ | .jpV0 _ => none
  | .seKk _ _ | .sneKk _ _ | .ldKk _ _ | .addKk _ _ | .rnd _ _ | .seVy _ _ | .sneVy _ _ => none
  | .ldVy _ _ | .orVy _ _ | .andVy _ _ | .xorVy _ _ | .addVy _ _ | .subVy _ _ => none
  | .shr _ _ | .subnVy _ _ | .shl _ _ | .drw _ _ _ => none
  | .ldVxDt _ | .ldVxK _ | .ldDtVx _ | .ldStVx _ | .addI _ | .ldF _ => none
  | .ldB _ | .storeRegs _ | .loadRegs _ => none

/-- The V registers an instruction may write: its Vx (R22), V0..Vx of Fx65, and VF where it is written as a flag
(R37). -/
def Instr.writesV (r : Reg) : Instr → Prop
  | .ldKk x _ | .addKk x _ | .rnd x _ => r = x
  | .ldVy x _ | .orVy x _ | .andVy x _ | .xorVy x _ => r = x
  | .addVy x _ | .subVy x _ | .shr x _ | .subnVy x _ | .shl x _ => r = x ∨ r = Reg.vf
  | .drw _ _ _ | .addI _ => r = Reg.vf
  | .ldVxDt x | .ldVxK x => r = x
  | .loadRegs x => r ≤ x
  | .cls | .ret | .jp _ | .call _ | .ldI _ | .jpV0 _ => False
  | .seKk _ _ | .sneKk _ _ | .seVy _ _ | .sneVy _ _ | .skp _ | .sknp _ => False
  | .ldDtVx _ | .ldStVx _ | .ldF _ | .ldB _ | .storeRegs _ => False

/-- The seven instructions that write VF as a flag (R37). -/
def Instr.setsFlag : Instr → Bool
  | .addVy _ _ | .subVy _ _ | .shr _ _ | .subnVy _ _ | .shl _ _ | .drw _ _ _ | .addI _ => true
  | .cls | .ret | .jp _ | .call _ | .ldI _ | .jpV0 _ => false
  | .seKk _ _ | .sneKk _ _ | .seVy _ _ | .sneVy _ _ | .skp _ | .sknp _ => false
  | .ldKk _ _ | .addKk _ _ | .rnd _ _ | .ldVy _ _ | .orVy _ _ | .andVy _ _ | .xorVy _ _ => false
  | .ldVxDt _ | .ldVxK _ | .ldDtVx _ | .ldStVx _ => false
  | .ldF _ | .ldB _ | .storeRegs _ | .loadRegs _ => false

end Sys2Proof

namespace Sys2Proof.Machine

/-- The instruction rows of the fault table (R138): in `s`, instruction `i` meets the condition of the cause with code
`code` and FAULT_INFO `info`. -/
def FaultRow (s : State) (i : Instr) (code : BitVec 3) (info : Word) : Prop :=
  ((∃ nnn, i = .call nnn) ∧ s.sp.val = 16 ∧ code = 1 ∧ info = 16) ∨
  (i = .ret ∧ s.sp.val = 0 ∧ code = 2 ∧ info = 0) ∨
  (1 ≤ i.footprint ∧ 0xFFF < s.i.toNat + i.footprint - 1 ∧ code = 3 ∧ info = s.i) ∨
  (∃ x, i.keyReg = some x ∧ 0xF < (s.readV x).toNat ∧ code = 5 ∧ info.toNat = (s.readV x).toNat)

/-! ### Sprites (R126, R127) -/

/-- Sprite pixel law: the `n` sprite rows drawn at (cx, cy) have a 1 bit that falls on pixel (px, py). Row r, column c
falls on ((cx + c) mod 64, (cy + r) mod 32), and bit 7 of a row is its column 0. -/
def Covers (rows : Nat → Byte) (cx cy n px py : Nat) : Prop :=
  ∃ r c, r < n ∧ c < 8 ∧ (rows r).getLsbD (7 - c) = true ∧ (cx + c) % 64 = px ∧ (cy + r) % 32 = py

/-- The sprite of Dxyn in state `s` covers FB[idx]: its rows are at I, its place is (V[x], V[y]). -/
def State.spriteCovers (s : State) (x y : Reg) (n idx : Nat) : Prop :=
  Covers (fun r => s.memRead (s.i.toNat + r)) (s.readV x).toNat (s.readV y).toNat n (idx % 64) (idx / 64)

/-! ### The invariant of the block -/

/-- The fault registers are all 0, or they record the fault whose condition holds in this very state: since faults are
precise and a halted block does nothing, the state is still the one the faulting step found (R38, R138, R141, R143). -/
def State.FaultRecord (s : State) : Prop :=
  (s.faultCode = 0 ∧ s.faultPc = 0 ∧ s.faultOpcode = 0 ∧ s.faultInfo = 0) ∨
  (s.faultCode = 4 ∧ s.faultPc = s.pc ∧ s.faultOpcode = 0 ∧ s.faultInfo = s.pc ∧ 0xFFE < s.pc.toNat) ∨
  (s.pc.toNat ≤ 0xFFE ∧ s.faultPc = s.pc ∧ s.faultOpcode = s.fetchWord ∧
    ∃ i, decode s.fetchWord = .instr i ∧ FaultRow s i s.faultCode s.faultInfo)

/-- The event list is that of one step: a DecodeWarning, if any, comes first and names the latched opcode, which
decodes to nothing; a Tone leaves ST at 0; a halted block has emitted nothing (R87, R90, R92, R141). -/
def State.EventsOfStep (s : State) : Prop :=
  (s.events = [] ∨ s.events = [.tone] ∨
    (decode s.opcode = .unknown s.opcode ∧
      (s.events = [.decodeWarning s.opcode] ∨ s.events = [.decodeWarning s.opcode, .tone]))) ∧
  (.tone ∈ s.events → s.st = 0) ∧
  (s.halted → s.events = [])

/-- What every step keeps: memory in canonical form and inside 0x000..0xFFF, the fault registers a true record, the
event list that of one step. -/
def State.Inv (s : State) : Prop := s.mem.wf ∧ s.FaultRecord ∧ s.EventsOfStep

/-! ### Comparing two runs -/

/-- Two states that differ at most in what no instruction reads: draw_flag, the opcode latch, the event list, and the
contents of FAULT_PC, FAULT_OPCODE and FAULT_INFO (R34, R36, R38, R46). -/
def SameToPrograms (s t : State) : Prop :=
  t.v = s.v ∧ t.i = s.i ∧ t.pc = s.pc ∧ t.sp = s.sp ∧ t.stack = s.stack ∧ t.dt = s.dt ∧ t.st = s.st ∧ t.mem = s.mem ∧
  t.fb = s.fb ∧ t.key = s.key ∧ t.faultCode = s.faultCode ∧ t.rndIn = s.rndIn ∧ t.rndCount = s.rndCount

end Sys2Proof.Machine
end

