-- ==== Sys2Proof/Certificates/Slice0/Obligations.lean ====
section
/-! DEFINITION. The statements about the block. Each cites the rules of spec/ it formalises. -/

open Sys2Proof Sys2Proof.Machine

/-! ### Encoding (spec/30_encoding.md) -/

/-- Decoding the encoding of a well-formed instruction gives it back, every operand at every value of its field, from
the opcode and from its bytes, whatever follows them (R64, R66, R75). -/
def Obligations.DecodeOfEncodeIsIdentity : Prop :=
  ∀ i : Instr, i.wellFormed = true →
    decode (encode i) = .instr i ∧ ∀ rest : List Byte, decodeBytes (encodeBytes i ++ rest) = .instr i

/-- A word that decodes to an instruction is that instruction's encoding on every bit the decoder examines, and every
word equal to it on those bits decodes alike. Which bits are examined is R70 and R74 (the spec's own decision D19,
log entry 8) and R78. That the encoding has 0 in the bits that are not examined, and that SHR and SHL keep the y of
the word, is the model's own choice (log entry 10, DESIGN CHOICE). -/
def Obligations.EncodeOfDecodeKeepsExaminedBits : Prop :=
  ∀ (op : Word) (i : Instr), decode op = .instr i →
    i.wellFormed = true ∧ encode i = op &&& i.examinedBits ∧
    ∀ op' : Word, op' &&& i.examinedBits = op &&& i.examinedBits → decode op' = .instr i

/-- The opcode map of R75: 34 rows; a word is the instruction of a row exactly when it matches the row under the
row's mask; no word matches two rows; every instruction has its row. Rests on the spec's own decisions D16, D19 (log
entry 8). -/
def Obligations.DecodeFollowsOpcodeMap : Prop :=
  opcodeMap.length = 34 ∧
  (∀ op : Word, ∀ r ∈ opcodeMap,
    (op &&& r.mask = r.pattern ↔ ∃ i : Instr, decode op = .instr i ∧ i.rowNumber = r.number)) ∧
  (∀ op : Word, ∀ r ∈ opcodeMap, ∀ q ∈ opcodeMap,
    op &&& r.mask = r.pattern → op &&& q.mask = q.pattern → r = q) ∧
  (∀ i : Instr, ∃ r ∈ opcodeMap, r.number = i.rowNumber)

/-- The decoder is total, and a word decodes to nothing exactly in the cases R76 lists by class and low byte or low
nibble. Rests on the spec's own decisions D16, D19 (log entry 8). -/
def Obligations.UnknownWordsAreExactlyListed : Prop :=
  ∀ op : Word,
    ((∃ i : Instr, decode op = .instr i) ∨ decode op = .unknown op) ∧
    (decode op = .unknown op ↔
      (op.toNat / 4096 = 0x0 ∧ op.toNat % 256 ∉ [0xE0, 0xEE]) ∨
      (op.toNat / 4096 = 0x8 ∧ op.toNat % 16 ∈ [0x8, 0x9, 0xA, 0xB, 0xC, 0xD, 0xF]) ∨
      (op.toNat / 4096 = 0xE ∧ op.toNat % 256 ∉ [0x9E, 0xA1]) ∨
      (op.toNat / 4096 = 0xF ∧
        op.toNat % 256 ∉ [0x07, 0x0A, 0x15, 0x18, 0x1E, 0x29, 0x33, 0x55, 0x65]))

/-- The layout of every row, bit 15 on the left (R66, R67, R68): the fields are read from their own bits, and ignored
bits may hold anything (R70, R74). Rests on the spec's own decisions D16, D18, D19 (log entry 8). -/
def Obligations.EveryLayoutDecodesToItsRow : Prop :=
  ∀ (x y n ign : BitVec 4) (kk : Byte) (nnn : Addr),
    decode (0x0#4 ++ ign ++ 0xE0#8) = .instr .cls ∧
    decode (0x0#4 ++ ign ++ 0xEE#8) = .instr .ret ∧
    decode (0x1#4 ++ nnn) = .instr (.jp nnn) ∧
    decode (0x2#4 ++ nnn) = .instr (.call nnn) ∧
    decode (0x3#4 ++ x ++ kk) = .instr (.seKk x.toFin kk) ∧
    decode (0x4#4 ++ x ++ kk) = .instr (.sneKk x.toFin kk) ∧
    decode (0x5#4 ++ x ++ y ++ ign) = .instr (.seVy x.toFin y.toFin) ∧
    decode (0x6#4 ++ x ++ kk) = .instr (.ldKk x.toFin kk) ∧
    decode (0x7#4 ++ x ++ kk) = .instr (.addKk x.toFin kk) ∧
    decode (0x8#4 ++ x ++ y ++ 0x0#4) = .instr (.ldVy x.toFin y.toFin) ∧
    decode (0x8#4 ++ x ++ y ++ 0x1#4) = .instr (.orVy x.toFin y.toFin) ∧
    decode (0x8#4 ++ x ++ y ++ 0x2#4) = .instr (.andVy x.toFin y.toFin) ∧
    decode (0x8#4 ++ x ++ y ++ 0x3#4) = .instr (.xorVy x.toFin y.toFin) ∧
    decode (0x8#4 ++ x ++ y ++ 0x4#4) = .instr (.addVy x.toFin y.toFin) ∧
    decode (0x8#4 ++ x ++ y ++ 0x5#4) = .instr (.subVy x.toFin y.toFin) ∧
    decode (0x8#4 ++ x ++ y ++ 0x6#4) = .instr (.shr x.toFin y.toFin) ∧
    decode (0x8#4 ++ x ++ y ++ 0x7#4) = .instr (.subnVy x.toFin y.toFin) ∧
    decode (0x8#4 ++ x ++ y ++ 0xE#4) = .instr (.shl x.toFin y.toFin) ∧
    decode (0x9#4 ++ x ++ y ++ ign) = .instr (.sneVy x.toFin y.toFin) ∧
    decode (0xA#4 ++ nnn) = .instr (.ldI nnn) ∧
    decode (0xB#4 ++ nnn) = .instr (.jpV0 nnn) ∧
    decode (0xC#4 ++ x ++ kk) = .instr (.rnd x.toFin kk) ∧
    decode (0xD#4 ++ x ++ y ++ n) = .instr (.drw x.toFin y.toFin n.toNat) ∧
    decode (0xE#4 ++ x ++ 0x9E#8) = .instr (.skp x.toFin) ∧
    decode (0xE#4 ++ x ++ 0xA1#8) = .instr (.sknp x.toFin) ∧
    decode (0xF#4 ++ x ++ 0x07#8) = .instr (.ldVxDt x.toFin) ∧
    decode (0xF#4 ++ x ++ 0x0A#8) = .instr (.ldVxK x.toFin) ∧
    decode (0xF#4 ++ x ++ 0x15#8) = .instr (.ldDtVx x.toFin) ∧
    decode (0xF#4 ++ x ++ 0x18#8) = .instr (.ldStVx x.toFin) ∧
    decode (0xF#4 ++ x ++ 0x1E#8) = .instr (.addI x.toFin) ∧
    decode (0xF#4 ++ x ++ 0x29#8) = .instr (.ldF x.toFin) ∧
    decode (0xF#4 ++ x ++ 0x33#8) = .instr (.ldB x.toFin) ∧
    decode (0xF#4 ++ x ++ 0x55#8) = .instr (.storeRegs x.toFin) ∧
    decode (0xF#4 ++ x ++ 0x65#8) = .instr (.loadRegs x.toFin)

/-- A few words written out bit by bit from the encodings decode to the instruction they stand for (R75). -/
def Obligations.SampleWordsDecode : Prop :=
  decode 0b0000001111100000#16 = .instr .cls ∧
  decode 0b0001001000110100#16 = .instr (.jp 0x234) ∧
  decode 0b0101000100100001#16 = .instr (.seVy 1 2) ∧
  decode 0b1000000100100100#16 = .instr (.addVy 1 2) ∧
  decode 0b1101000100100101#16 = .instr (.drw 1 2 5) ∧
  decode 0b1110000110011110#16 = .instr (.skp 1) ∧
  decode 0b1111001001100101#16 = .instr (.loadRegs 2) ∧
  decode 0b1000000100101000#16 = .unknown 0x8128

/-! ### Control transfer (spec/41_flow.md) -/

/-- R94, RET: on an empty stack STACK_UNDERFLOW; else the popped value + 2 is the new pc, the depth falls by one, the
entry stays, and nothing else changes. Rests on the spec's own decisions D4, D5 (log entry 8). -/
def Obligations.RetResumesAfterTheCall : Prop :=
  MatchDecodes 0xF0FF 0x00EE (fun _ => .ret) ∧
  ∀ s : State,
    (s.sp.val = 0 → Raises .ret s 2 0) ∧
    (∀ j : Fin 16, s.sp.val = j.val + 1 →
      ∃ t, exec .ret s = .next t ∧ t.pc = s.stackAt j + 2 ∧ t.sp.val = j.val ∧ Frame (fun p => p = .depth) s t)

/-- R95 and R101, JP nnn (`pc <- zext_16(nnn)`) and JP V0, nnn (`pc <- zext_16(nnn) + V[0]`, not masked to 12 bits):
pc is replaced and nothing else changes. Rests on the spec's own decision D25 (log entry 8). -/
def Obligations.JumpsReplacePc : Prop :=
  MatchDecodes 0xF000 0x1000 (fun op => .jp (fieldNnn op)) ∧
  MatchDecodes 0xF000 0xB000 (fun op => .jpV0 (fieldNnn op)) ∧
  ∀ (nnn : Addr) (s : State),
    (∃ t, exec (.jp nnn) s = .next t ∧ t.pc.toNat = nnn.toNat ∧ Frame (fun _ => False) s t) ∧
    (∃ t, exec (.jpV0 nnn) s = .next t ∧ t.pc.toNat = nnn.toNat + (s.readV 0).toNat ∧ Frame (fun _ => False) s t)

/-- R96, CALL: on a full stack STACK_OVERFLOW; else the CALL's own address is pushed, pc is nnn, and nothing else
changes. Rests on the spec's own decisions D4, D5 (log entry 8). -/
def Obligations.CallPushesItsOwnAddress : Prop :=
  MatchDecodes 0xF000 0x2000 (fun op => .call (fieldNnn op)) ∧
  ∀ (nnn : Addr) (s : State),
    (s.sp.val = 16 → Raises (.call nnn) s 1 16) ∧
    (∀ j : Fin 16, s.sp.val = j.val →
      ∃ t, exec (.call nnn) s = .next t ∧ t.pc.toNat = nnn.toNat ∧ t.stackAt j = s.pc ∧ t.sp.val = j.val + 1 ∧
        Frame (fun p => p = .depth ∨ p = .entry j) s t)

/-- R97 to R100, the skips on register values: pc + 4 if the condition holds, else pc + 2; nothing else changes.
Rests on the spec's own decision D19 (log entry 8). -/
def Obligations.RegisterSkips : Prop :=
  MatchDecodes 0xF000 0x3000 (fun op => .seKk (fieldX op) (fieldKk op)) ∧
  MatchDecodes 0xF000 0x4000 (fun op => .sneKk (fieldX op) (fieldKk op)) ∧
  MatchDecodes 0xF000 0x5000 (fun op => .seVy (fieldX op) (fieldY op)) ∧
  MatchDecodes 0xF000 0x9000 (fun op => .sneVy (fieldX op) (fieldY op)) ∧
  ∀ (x y : Reg) (kk : Byte) (s : State),
    (∃ t, exec (.seKk x kk) s = .next t ∧ t.pc = s.pc + (if s.readV x = kk then 4 else 2) ∧
      Frame (fun _ => False) s t) ∧
    (∃ t, exec (.sneKk x kk) s = .next t ∧ t.pc = s.pc + (if s.readV x = kk then 2 else 4) ∧
      Frame (fun _ => False) s t) ∧
    (∃ t, exec (.seVy x y) s = .next t ∧ t.pc = s.pc + (if s.readV x = s.readV y then 4 else 2) ∧
      Frame (fun _ => False) s t) ∧
    (∃ t, exec (.sneVy x y) s = .next t ∧ t.pc = s.pc + (if s.readV x = s.readV y then 2 else 4) ∧
      Frame (fun _ => False) s t)

/-- A RET that finds the stack as a CALL left it resumes after that CALL with the caller's depth, whatever ran in
between (R94, R96, R102). -/
def Obligations.CallThenRetReturns : Prop :=
  ∀ (nnn : Addr) (s t u : State), s.sp.val < 16 → exec (.call nnn) s = .next t →
    u.sp = t.sp → (∀ j : Fin 16, u.stackAt j = t.stackAt j) →
    ∃ w, exec .ret u = .next w ∧ w.pc = s.pc + 2 ∧ w.sp = s.sp ∧
      ∀ j : Fin 16, j.val < s.sp.val → w.stackAt j = s.stackAt j

/-! ### Loads and arithmetic (spec/42_alu.md) -/

/-- R104 to R109, the loads and operations that set no flag: the result in Vx, VF written only as Vx, pc + 2, and
nothing else changes. Rests on the spec's own decisions D16, D17 (log entry 8). -/
def Obligations.PlainLoadsAndLogic : Prop :=
  MatchDecodes 0xF000 0x6000 (fun op => .ldKk (fieldX op) (fieldKk op)) ∧
  MatchDecodes 0xF000 0x7000 (fun op => .addKk (fieldX op) (fieldKk op)) ∧
  MatchDecodes 0xF00F 0x8000 (fun op => .ldVy (fieldX op) (fieldY op)) ∧
  MatchDecodes 0xF00F 0x8001 (fun op => .orVy (fieldX op) (fieldY op)) ∧
  MatchDecodes 0xF00F 0x8002 (fun op => .andVy (fieldX op) (fieldY op)) ∧
  MatchDecodes 0xF00F 0x8003 (fun op => .xorVy (fieldX op) (fieldY op)) ∧
  ∀ (x y : Reg) (kk : Byte) (s : State),
    (∃ t, exec (.ldKk x kk) s = .next t ∧ t.readV x = kk ∧ t.pc = s.pc + 2 ∧ Frame (fun p => p = .v x) s t) ∧
    (∃ t, exec (.addKk x kk) s = .next t ∧ (t.readV x).toNat = ((s.readV x).toNat + kk.toNat) % 256 ∧
      t.pc = s.pc + 2 ∧ Frame (fun p => p = .v x) s t) ∧
    (∃ t, exec (.ldVy x y) s = .next t ∧ t.readV x = s.readV y ∧ t.pc = s.pc + 2 ∧
      Frame (fun p => p = .v x) s t) ∧
    (∃ t, exec (.orVy x y) s = .next t ∧ t.readV x = s.readV x ||| s.readV y ∧ t.pc = s.pc + 2 ∧
      Frame (fun p => p = .v x) s t) ∧
    (∃ t, exec (.andVy x y) s = .next t ∧ t.readV x = s.readV x &&& s.readV y ∧ t.pc = s.pc + 2 ∧
      Frame (fun p => p = .v x) s t) ∧
    (∃ t, exec (.xorVy x y) s = .next t ∧ t.readV x = s.readV x ^^^ s.readV y ∧ t.pc = s.pc + 2 ∧
      Frame (fun p => p = .v x) s t)

/-- R110, ADD Vx, Vy: the sum mod 256 in Vx, then the carry in VF, which wins when x = F. -/
def Obligations.AddSetsCarry : Prop :=
  MatchDecodes 0xF00F 0x8004 (fun op => .addVy (fieldX op) (fieldY op)) ∧
  ∀ (x y : Reg) (s : State),
    ∃ t, exec (.addVy x y) s = .next t ∧
      (x ≠ .vf → (t.readV x).toNat = ((s.readV x).toNat + (s.readV y).toNat) % 256) ∧
      t.readV .vf = (if 255 < (s.readV x).toNat + (s.readV y).toNat then 1 else 0) ∧
      t.pc = s.pc + 2 ∧ Frame (fun p => p = .v x ∨ p = .v .vf) s t

/-- R111 and R113, SUB and SUBN: the difference mod 256 in Vx, then VF = 1 exactly on strictly greater. Rests on the
spec's own decision D16 (log entry 8). -/
def Obligations.SubtractionsSetNoBorrow : Prop :=
  MatchDecodes 0xF00F 0x8005 (fun op => .subVy (fieldX op) (fieldY op)) ∧
  MatchDecodes 0xF00F 0x8007 (fun op => .subnVy (fieldX op) (fieldY op)) ∧
  ∀ (x y : Reg) (s : State),
    (∃ t, exec (.subVy x y) s = .next t ∧
      (x ≠ .vf → ((t.readV x).toNat : Int) = ((s.readV x).toNat - (s.readV y).toNat : Int) % 256) ∧
      t.readV .vf = (if (s.readV y).toNat < (s.readV x).toNat then 1 else 0) ∧
      t.pc = s.pc + 2 ∧ Frame (fun p => p = .v x ∨ p = .v .vf) s t) ∧
    (∃ t, exec (.subnVy x y) s = .next t ∧
      (x ≠ .vf → ((t.readV x).toNat : Int) = ((s.readV y).toNat - (s.readV x).toNat : Int) % 256) ∧
      t.readV .vf = (if (s.readV x).toNat < (s.readV y).toNat then 1 else 0) ∧
      t.pc = s.pc + 2 ∧ Frame (fun p => p = .v x ∨ p = .v .vf) s t)

/-- R112 and R114, SHR and SHL: Vx shifted by one, then the bit shifted out in VF; y is ignored; pc + 2 (R7:
SHR_PC_ADVANCE is 2). Rests on the spec's own decisions D10, D16 (log entry 8). -/
def Obligations.ShiftsSetTheBitShiftedOut : Prop :=
  MatchDecodes 0xF00F 0x8006 (fun op => .shr (fieldX op) (fieldY op)) ∧
  MatchDecodes 0xF00F 0x800E (fun op => .shl (fieldX op) (fieldY op)) ∧
  ∀ (x y : Reg) (s : State),
    (∃ t, exec (.shr x y) s = .next t ∧ (x ≠ .vf → (t.readV x).toNat = (s.readV x).toNat / 2) ∧
      (t.readV .vf).toNat = (s.readV x).toNat % 2 ∧ t.pc = s.pc + 2 ∧
      Frame (fun p => p = .v x ∨ p = .v .vf) s t) ∧
    (∃ t, exec (.shl x y) s = .next t ∧ (x ≠ .vf → (t.readV x).toNat = 2 * (s.readV x).toNat % 256) ∧
      (t.readV .vf).toNat = (s.readV x).toNat / 128 ∧ t.pc = s.pc + 2 ∧
      Frame (fun p => p = .v x ∨ p = .v .vf) s t)

/-- R115, RND: Vx is the step's rnd input under the mask kk, whatever that input is; a byte that the host supplies for
the step is that input. (Where it supplies none the input is a free value, log entry 5.) -/
def Obligations.RndMasksTheStepInput : Prop :=
  MatchDecodes 0xF000 0xC000 (fun op => .rnd (fieldX op) (fieldKk op)) ∧
  ∀ (x : Reg) (kk : Byte) (s : State),
    (∃ t, exec (.rnd x kk) s = .next t ∧ t.readV x = s.rndByte &&& kk ∧ t.pc = s.pc + 2 ∧
      Frame (fun p => p = .v x) s t) ∧
    (∀ rnd : Byte, (supplyRnd rnd s).rndByte = rnd)

/-- An instruction changes only the V registers it is said to write: its Vx, V0..Vx of Fx65, VF as a flag. One that
sets a flag and does not fault leaves VF at 0 or 1, whatever its x and y (R21, R22, R37). -/
def Obligations.WritersOfRegisters : Prop :=
  ∀ (i : Instr) (s t : State), exec i s = .next t →
    (∀ r : Reg, t.readV r ≠ s.readV r → i.writesV r) ∧
    (i.setsFlag = true → t.faultCode = s.faultCode → ¬ s.halted → t.readV .vf = 0 ∨ t.readV .vf = 1)

/-! ### The index register and memory (spec/43_index_memory.md) -/

/-- R118 and R120, LD I, nnn and LD F, Vx: I is nnn, or 5 times the unmasked Vx. Rests on the spec's own decision D27
(log entry 8). -/
def Obligations.IndexLoads : Prop :=
  MatchDecodes 0xF000 0xA000 (fun op => .ldI (fieldNnn op)) ∧
  MatchDecodes 0xF0FF 0xF029 (fun op => .ldF (fieldX op)) ∧
  ∀ (nnn : Addr) (x : Reg) (s : State),
    (∃ t, exec (.ldI nnn) s = .next t ∧ t.i.toNat = nnn.toNat ∧ t.pc = s.pc + 2 ∧
      Frame (fun p => p = .index) s t) ∧
    (∃ t, exec (.ldF x) s = .next t ∧ t.i.toNat = (s.readV x).toNat * 5 ∧ t.pc = s.pc + 2 ∧
      Frame (fun p => p = .index) s t)

/-- R119, ADD I, Vx: I is the sum mod 2^16, then VF tells whether the untruncated sum exceeds 0xFFF. Rests on the
spec's own decision D12 (log entry 8). -/
def Obligations.AddToIndexSetsRangeFlag : Prop :=
  MatchDecodes 0xF0FF 0xF01E (fun op => .addI (fieldX op)) ∧
  ∀ (x : Reg) (s : State),
    ∃ t, exec (.addI x) s = .next t ∧ t.i.toNat = (s.i.toNat + (s.readV x).toNat) % 65536 ∧
      t.readV .vf = (if 0xFFF < s.i.toNat + (s.readV x).toNat then 1 else 0) ∧ t.pc = s.pc + 2 ∧
      Frame (fun p => p = .index ∨ p = .v .vf) s t

/-- R121, LD B, Vx: MEM_OUT_OF_RANGE when I > 0xFFD; else the three digits at I, I + 1, I + 2, which make up Vx, and
every other byte as before. Rests on the spec's own decision D6 (log entry 8). -/
def Obligations.BcdStoresTheDigits : Prop :=
  MatchDecodes 0xF0FF 0xF033 (fun op => .ldB (fieldX op)) ∧
  ∀ (x : Reg) (s : State),
    (0xFFD < s.i.toNat → Raises (.ldB x) s 3 s.i) ∧
    (s.i.toNat ≤ 0xFFD → ∃ t, exec (.ldB x) s = .next t ∧
      (t.memRead s.i.toNat).toNat = (s.readV x).toNat / 100 ∧
      (t.memRead (s.i.toNat + 1)).toNat = (s.readV x).toNat / 10 % 10 ∧
      (t.memRead (s.i.toNat + 2)).toNat = (s.readV x).toNat % 10 ∧
      100 * (t.memRead s.i.toNat).toNat + 10 * (t.memRead (s.i.toNat + 1)).toNat +
        (t.memRead (s.i.toNat + 2)).toNat = (s.readV x).toNat ∧
      t.pc = s.pc + 2 ∧ Frame (bytesAt s.i.toNat 3) s t)

/-- R122, LD [I], Vx: MEM_OUT_OF_RANGE when I + x > 0xFFF; else V0..Vx at I..I + x, every other byte as before, and I
past the last. Rests on the spec's own decision D6 (log entry 8). -/
def Obligations.StoreRegsWritesFromIndex : Prop :=
  MatchDecodes 0xF0FF 0xF055 (fun op => .storeRegs (fieldX op)) ∧
  ∀ (x : Reg) (s : State),
    (0xFFF < s.i.toNat + x.val → Raises (.storeRegs x) s 3 s.i) ∧
    (s.i.toNat + x.val ≤ 0xFFF → ∃ t, exec (.storeRegs x) s = .next t ∧
      (∀ r : Reg, r ≤ x → t.memRead (s.i.toNat + r.val) = s.readV r) ∧
      t.i.toNat = s.i.toNat + x.val + 1 ∧ t.pc = s.pc + 2 ∧
      Frame (fun p => p = .index ∨ bytesAt s.i.toNat (x.val + 1) p) s t)

/-- R123, LD Vx, [I]: MEM_OUT_OF_RANGE when I + x > 0xFFF; else V0..Vx from I..I + x, the registers above Vx and all
of memory as before, and I past the last. Rests on the spec's own decision D6 (log entry 8). -/
def Obligations.LoadRegsReadsFromIndex : Prop :=
  MatchDecodes 0xF0FF 0xF065 (fun op => .loadRegs (fieldX op)) ∧
  ∀ (x : Reg) (s : State),
    (0xFFF < s.i.toNat + x.val → Raises (.loadRegs x) s 3 s.i) ∧
    (s.i.toNat + x.val ≤ 0xFFF → ∃ t, exec (.loadRegs x) s = .next t ∧
      (∀ r : Reg, r ≤ x → t.readV r = s.memRead (s.i.toNat + r.val)) ∧
      t.i.toNat = s.i.toNat + x.val + 1 ∧ t.pc = s.pc + 2 ∧
      Frame (fun p => p = .index ∨ regsUpTo x p) s t)

/-- The round-trip law of R123: Fx55, then Fx65 with I set back and any V, restores V0..Vx and advances I alike. -/
def Obligations.StoreThenLoadRestoresRegisters : Prop :=
  ∀ (x : Reg) (s t u : State), s.i.toNat + x.val ≤ 0xFFF → exec (.storeRegs x) s = .next t →
    (∀ a : Nat, u.memRead a = t.memRead a) → u.i = s.i →
    ∃ w, exec (.loadRegs x) u = .next w ∧ (∀ r : Reg, r ≤ x → w.readV r = s.readV r) ∧ w.i = t.i

/-! ### Framebuffer (spec/44_display.md) -/

/-- R125, CLS: every pixel 0, pc + 2; VF and draw_flag are not written. -/
def Obligations.ClsClearsTheScreen : Prop :=
  MatchDecodes 0xF0FF 0x00E0 (fun _ => .cls) ∧
  ∀ s : State, ∃ t, exec .cls s = .next t ∧ (∀ idx, t.pixelAt idx = false) ∧ t.pc = s.pc + 2 ∧
    Frame anyPixel s t

/-- R126 and R127, DRW: MEM_OUT_OF_RANGE when a row lies above 0xFFF; else exactly the pixels under the sprite's 1
bits, wrapped per coordinate, are flipped, VF tells whether one went from 1 to 0, and draw_flag is set. Rests on the
spec's own decisions D6, D13, D14, D15, D35 (log entry 8). -/
def Obligations.DrwFlipsExactlyTheSpritePixels : Prop :=
  MatchDecodes 0xF000 0xD000 (fun op => .drw (fieldX op) (fieldY op) (fieldN op).toNat) ∧
  ∀ (x y : Reg) (n : Nat) (s : State), n ≤ 15 →
    (1 ≤ n → 0xFFF < s.i.toNat + n - 1 → Raises (.drw x y n) s 3 s.i) ∧
    (n = 0 ∨ s.i.toNat + n - 1 ≤ 0xFFF → ∃ t, exec (.drw x y n) s = .next t ∧
      (∀ idx < 2048, t.pixelAt idx ≠ s.pixelAt idx ↔ s.spriteCovers x y n idx) ∧
      ((∃ idx < 2048, s.pixelAt idx = true ∧ t.pixelAt idx = false) → t.readV .vf = 1) ∧
      ((¬ ∃ idx < 2048, s.pixelAt idx = true ∧ t.pixelAt idx = false) → t.readV .vf = 0) ∧
      t.drawFlag = true ∧ t.pc = s.pc + 2 ∧
      Frame (fun p => p = .v .vf ∨ p = .drawFlag ∨ anyPixel p) s t)

/-- R128: the same sprite drawn again at the same place restores every pixel; the second draw's VF is 1 exactly when
some 1 bit lay over a pixel that was 0 before the first; on a clear region the first never sets VF, and the second
does if the sprite has a 1 bit. -/
def Obligations.DrawingTwiceRestoresTheScreen : Prop :=
  ∀ (x y : Reg) (n : Nat) (s t u : State), n ≤ 15 → (n = 0 ∨ s.i.toNat + n - 1 ≤ 0xFFF) →
    exec (.drw x y n) s = .next t →
    (∀ idx < 2048, u.pixelAt idx = t.pixelAt idx) → (∀ a : Nat, u.memRead a = s.memRead a) →
    u.i = s.i → u.readV x = s.readV x → u.readV y = s.readV y →
    ∃ w, exec (.drw x y n) u = .next w ∧
      (∀ idx < 2048, w.pixelAt idx = s.pixelAt idx) ∧
      (w.readV .vf = 1 ↔ ∃ idx < 2048, s.spriteCovers x y n idx ∧ s.pixelAt idx = false) ∧
      ((∀ idx < 2048, s.spriteCovers x y n idx → s.pixelAt idx = false) →
        t.readV .vf = 0 ∧ ((∃ r < n, s.memRead (s.i.toNat + r) ≠ 0) → w.readV .vf = 1))

/-! ### Keys and timers (spec/45_timers_keys.md) -/

/-- R129 and R130, SKP and SKNP: KEY_OUT_OF_RANGE when V[x] > 0xF; else pc + 4 or pc + 2 by the key's state, which is
only read. Rests on the spec's own decision D8 (log entry 8). -/
def Obligations.KeySkips : Prop :=
  MatchDecodes 0xF0FF 0xE09E (fun op => .skp (fieldX op)) ∧
  MatchDecodes 0xF0FF 0xE0A1 (fun op => .sknp (fieldX op)) ∧
  ∀ (x : Reg) (s : State),
    (0xF < (s.readV x).toNat →
      Raises (.skp x) s 5 (BitVec.ofNat 16 (s.readV x).toNat) ∧
      Raises (.sknp x) s 5 (BitVec.ofNat 16 (s.readV x).toNat)) ∧
    (∀ k : Reg, (s.readV x).toNat = k.val →
      (∃ t, exec (.skp x) s = .next t ∧ t.pc = s.pc + (if s.keyDown k then 4 else 2) ∧
        Frame (fun _ => False) s t) ∧
      (∃ t, exec (.sknp x) s = .next t ∧ t.pc = s.pc + (if s.keyDown k then 2 else 4) ∧
        Frame (fun _ => False) s t))

/-- R131, R133 and R134, the timer moves, before the step's tick. Rests on the spec's own decision D18 (log entry 8). -/
def Obligations.TimerMoves : Prop :=
  MatchDecodes 0xF0FF 0xF007 (fun op => .ldVxDt (fieldX op)) ∧
  MatchDecodes 0xF0FF 0xF015 (fun op => .ldDtVx (fieldX op)) ∧
  MatchDecodes 0xF0FF 0xF018 (fun op => .ldStVx (fieldX op)) ∧
  ∀ (x : Reg) (s : State),
    (∃ t, exec (.ldVxDt x) s = .next t ∧ t.readV x = s.dt ∧ t.pc = s.pc + 2 ∧ Frame (fun p => p = .v x) s t) ∧
    (∃ t, exec (.ldDtVx x) s = .next t ∧ t.dt = s.readV x ∧ t.pc = s.pc + 2 ∧ Frame (fun p => p = .delay) s t) ∧
    (∃ t, exec (.ldStVx x) s = .next t ∧ t.st = s.readV x ∧ t.pc = s.pc + 2 ∧ Frame (fun p => p = .sound) s t)

/-- R132, LD Vx, K: with no key pressed nothing changes, pc included; else the highest pressed key goes into Vx.
Under the alternative FX0A_PRIORITY the lowest would be taken. Rests on the spec's own decision D11 (log entry 8). -/
def Obligations.KeyWaitTakesTheHighestKey : Prop :=
  MatchDecodes 0xF0FF 0xF00A (fun op => .ldVxK (fieldX op)) ∧
  ∀ (x : Reg) (s : State),
    ((∀ k : Reg, s.keyDown k = false) → exec (.ldVxK x) s = .next s) ∧
    (∀ k : Reg, s.keyDown k = true → (∀ q : Reg, s.keyDown q = true → q ≤ k) →
      ∃ t, exec (.ldVxK x) s = .next t ∧ (t.readV x).toNat = k.val ∧ t.pc = s.pc + 2 ∧
        Frame (fun p => p = .v x) s t) ∧
    (∀ k : Reg, s.keyDown k = true → (∀ q : Reg, s.keyDown q = true → k ≤ q) →
      chosenKey .lowest s.pressedKeys = some k)

/-- R135: the values a timer write leaves at the end of its step, and the Tone of the step. -/
def Obligations.TimerWriteThenTick : Prop :=
  ∀ (x : Reg) (s t : State), ¬ s.halted → s.pc.toNat ≤ 0xFFE → step s = .next t →
    (decode s.fetchWord = .instr (.ldDtVx x) → t.dt.toNat = (s.readV x).toNat - 1) ∧
    (decode s.fetchWord = .instr (.ldStVx x) →
      t.st.toNat = (s.readV x).toNat - 1 ∧ (.tone ∈ t.events ↔ s.readV x = 1))

/-- R91: an Fx0A with no key pressed repeats, the timers ticking, until a key is pressed; the first step that starts
with one pressed completes it. -/
def Obligations.KeyWaitRepollsUntilPressed : Prop :=
  ∀ (x : Reg) (n : Nat) (s : State), ¬ s.halted → s.pc.toNat ≤ 0xFFE → decode s.fetchWord = .instr (.ldVxK x) →
    (∀ k : Reg, s.keyDown k = false) →
    ∃ t : State, Host.Core.run Sys2Proof.core n s = .next t ∧ t.pc = s.pc ∧
      t.dt.toNat = s.dt.toNat - n ∧ t.st.toNat = s.st.toNat - n ∧
      Frame (fun p => p = .delay ∨ p = .sound ∨ p = .latch ∨ p = .events ∨ p = .input) s t ∧
      ∀ k : Reg, ∃ u, step (keyWrite k true t) = .next u ∧ (u.readV x).toNat = k.val ∧ u.pc = s.pc + 2

/-! ### The step (spec/40_step_cycle.md) -/

/-- A step runs the decoded instruction (R81, R85): not halted, pc at or below 0xFFE and the word at pc decoding to
i, step is exec of i on the state with the latch written and no event; then, without a fault, Tone and the tick (R87,
R88) and the input taken; with a fault, the state as it was but for the fault registers (R15, R81, R142). The fields
events, rndIn and rndCount, and that FAULT_OPCODE is taken from the latch, are the model's own (log entries 4, 5 and
14). -/
def Obligations.StepRunsTheDecodedInstruction : Prop :=
  ∀ (i : Instr) (s t : State), ¬ s.halted → s.pc.toNat ≤ 0xFFE → decode s.fetchWord = .instr i →
    exec i { s with opcode := s.fetchWord, events := [] } = .next t →
    (¬ t.halted → step s = .next { t with
      events := t.events ++ (if t.st = 1 then [.tone] else []),
      dt := if t.dt = 0 then 0 else t.dt - 1,
      st := if t.st = 0 then 0 else t.st - 1,
      rndIn := t.rndIn.tail, rndCount := t.rndCount + 1 }) ∧
    (t.halted → step s = .next { s with
      faultCode := t.faultCode, faultPc := t.faultPc, faultOpcode := t.faultOpcode, faultInfo := t.faultInfo,
      events := [], rndIn := s.rndIn.tail, rndCount := s.rndCount + 1 })

/-- R82, R51 and R56: the opcode is the two bytes at pc, high byte first, pc odd or even; and with pc above 0xFFE the
step enters FETCH_OUT_OF_RANGE with FAULT_OPCODE 0 and FAULT_INFO pc, and changes nothing else. Rests on the spec's
own decisions D7, D26 (log entry 8). -/
def Obligations.FetchIsBigEndianAndChecked : Prop :=
  ∀ s : State,
    s.fetchWord.toNat = (s.memRead s.pc.toNat).toNat * 256 + (s.memRead (s.pc.toNat + 1)).toNat ∧
    (¬ s.halted → 0xFFE < s.pc.toNat → ∃ t, step s = .next t ∧ t.faultCode = 4 ∧ t.faultPc = s.pc ∧
      t.faultOpcode = 0 ∧ t.faultInfo = s.pc ∧ t.events = [] ∧ t.pc = s.pc ∧
      Frame (fun p => p = .faultRegs ∨ p = .events ∨ p = .input) s t)

/-- R83: a step of a halted block changes no state, emits no event and does not tick the timers, and any number of
steps leaves the halt where it is. Rests on the spec's own decision D9 (log entry 8). -/
def Obligations.HaltedBlockDoesNothing : Prop :=
  ∀ (n : Nat) (s : State), s.halted →
    ∃ t : State, Host.Core.run Sys2Proof.core (n + 1) s = .next t ∧ t.halted ∧ t.events = [] ∧ t.pc = s.pc ∧
      Frame (fun p => p = .events ∨ p = .input) s t

/-- R90: an unknown opcode emits DecodeWarning of it, writes nothing but the latch, leaves pc unchanged and ticks the
timers. (That the latch is written follows R36 and R81, log entry 9.) -/
def Obligations.UnknownOpcodeWarnsAndStays : Prop :=
  ∀ s : State, ¬ s.halted → s.pc.toNat ≤ 0xFFE → decode s.fetchWord = .unknown s.fetchWord →
    ∃ t, step s = .next t ∧ t.pc = s.pc ∧
      t.events = .decodeWarning s.fetchWord :: (if s.st = 1 then [.tone] else []) ∧
      t.dt.toNat = s.dt.toNat - 1 ∧ t.st.toNat = s.st.toNat - 1 ∧ t.opcode = s.fetchWord ∧
      Frame (fun p => p = .delay ∨ p = .sound ∨ p = .latch ∨ p = .events ∨ p = .input) s t

/-- R158: after reset alone, every step emits DecodeWarning(0x0000) with pc held at 0x200, and memory reads as after
reset. (The event list of a step is a field of State by the model's own choice, log entry 4.) -/
def Obligations.FreshResetRepeatsTheWarning : Prop :=
  ∀ n : Nat, ∃ t : State, Host.Core.run Sys2Proof.core (n + 1) State.reset = .next t ∧ t.pc = 0x200 ∧
    t.events = [.decodeWarning 0x0000] ∧ (∀ a, t.memRead a = State.reset.memRead a)

/-- The halt idiom (R95, D29): at a jump to its own address, any number of steps leaves pc there and changes only the
timers (and latch, events, input). -/
def Obligations.JumpToSelfHolds : Prop :=
  ∀ (n : Nat) (s : State), s.atHaltJump →
    ∃ t : State, Host.Core.run Sys2Proof.core n s = .next t ∧ t.pc = s.pc ∧ t.atHaltJump ∧
      t.dt.toNat = s.dt.toNat - n ∧ t.st.toNat = s.st.toNat - n ∧
      Frame (fun p => p = .delay ∨ p = .sound ∨ p = .latch ∨ p = .events ∨ p = .input) s t

/-- R88 and R89: every step that does not fault ticks both timers once, whatever it executes: a timer falls by 1 from
the value the instruction left in it, and stays at 0; a step that faults, or of a halted block, ticks neither. Rests
on the spec's own decisions D9, D28 (log entry 8). -/
def Obligations.EveryStepTicksTheTimers : Prop :=
  ∀ s t : State, step s = .next t →
    (¬ t.halted →
      ((∀ x, decode s.fetchWord ≠ .instr (.ldDtVx x)) → t.dt.toNat = s.dt.toNat - 1) ∧
      (∀ x, decode s.fetchWord = .instr (.ldDtVx x) → t.dt.toNat = (s.readV x).toNat - 1) ∧
      ((∀ x, decode s.fetchWord ≠ .instr (.ldStVx x)) → t.st.toNat = s.st.toNat - 1) ∧
      (∀ x, decode s.fetchWord = .instr (.ldStVx x) → t.st.toNat = (s.readV x).toNat - 1)) ∧
    (s.halted ∨ t.halted → t.dt = s.dt ∧ t.st = s.st)

/-- R92 and R87: the event list of a step is one of four; it holds DecodeWarning(op) exactly when op was fetched and
decodes to nothing, and Tone exactly when ST is 1 after the instruction; a faulting or halted step emits nothing.
Rests on the spec's own decision D30 (log entry 8). -/
def Obligations.EventsOfAStepAreExact : Prop :=
  ∀ s t : State, step s = .next t →
    (t.halted → t.events = []) ∧
    (¬ t.halted →
      (∀ op : Word, .decodeWarning op ∈ t.events ↔ op = s.fetchWord ∧ decode op = .unknown op) ∧
      (.tone ∈ t.events ↔
        (∃ x, decode s.fetchWord = .instr (.ldStVx x) ∧ s.readV x = 1) ∨
        ((∀ x, decode s.fetchWord ≠ .instr (.ldStVx x)) ∧ s.st = 1)) ∧
      (t.events = [] ∨ t.events = [.tone] ∨ t.events = [.decodeWarning s.fetchWord] ∨
        t.events = [.decodeWarning s.fetchWord, .tone]))

/-- The model's own reading of completion (log entry 6, DEDUCED): from every state, every instruction and every step
answers a next state, where taking a fault is a next state with the block halted, and a step of a halted block is a
next state that changes nothing. It does not say that a run is free of faults (`State.halted` and `State.verdict`
do). R93 says that a step always runs to completion; that a fault counts as one is not its word. -/
def Obligations.EveryStepCompletes : Prop :=
  (∀ (i : Instr) (s : State), ∃ t, exec i s = .next t) ∧ (∀ s : State, ∃ t, step s = .next t)

/-- R61 and R166: bytes that Fx55 stores at the next instruction's address are what the next step fetches. -/
def Obligations.StoredCodeIsFetchedNext : Prop :=
  ∀ (x a b : Reg) (s t : State), ¬ s.halted → s.pc.toNat ≤ 0xFFE → decode s.fetchWord = .instr (.storeRegs x) →
    s.i.toNat + x.val ≤ 0xFFF → b ≤ x → b.val = a.val + 1 → s.i.toNat + a.val = s.pc.toNat + 2 →
    step s = .next t →
    t.pc = s.pc + 2 ∧ t.fetchWord.toNat = (s.readV a).toNat * 256 + (s.readV b).toNat

/-! ### Faults (spec/60_exceptions.md) -/

/-- The instruction rows of R138: an instruction enters a fault exactly under the conditions of the fault table, with
the table's code and information; at most one applies (R144); under none the fault registers are left alone. -/
def Obligations.FaultsExactlyAsListed : Prop :=
  ∀ (i : Instr) (s : State),
    (∀ code info, FaultRow s i code info → Raises i s code info) ∧
    (∀ code info code' info', FaultRow s i code info → FaultRow s i code' info' → code = code' ∧ info = info') ∧
    ((∀ code info, ¬ FaultRow s i code info) → ∃ t, exec i s = .next t ∧ Part.faultRegs.same s t)

/-- R138: a step raises FETCH_OUT_OF_RANGE exactly when pc is above 0xFFE, else exactly the fault whose condition the
decoded instruction meets, with the code, FAULT_INFO, FAULT_PC and FAULT_OPCODE of the table; else it does not fault.
Rests on the spec's own decisions D5 to D9 (log entry 8). -/
def Obligations.StepFaultsExactlyAsListed : Prop :=
  ∀ s t : State, ¬ s.halted → step s = .next t →
    (0xFFE < s.pc.toNat → t.faultCode = 4 ∧ t.faultInfo = s.pc ∧ t.faultPc = s.pc ∧ t.faultOpcode = 0) ∧
    (s.pc.toNat ≤ 0xFFE → ∀ i code info, decode s.fetchWord = .instr i → FaultRow s i code info →
      t.faultCode = code ∧ t.faultInfo = info ∧ t.faultPc = s.pc ∧ t.faultOpcode = s.fetchWord) ∧
    (s.pc.toNat ≤ 0xFFE → (∀ i code info, decode s.fetchWord = .instr i → ¬ FaultRow s i code info) → ¬ t.halted)

/-- R141: faults are precise. A step that halts the block writes the fault registers, with FAULT_PC the step's pc and
FAULT_OPCODE its opcode (0 when nothing was fetched), and leaves every other part of the state, the latch and the
timers included, as it was; no event is emitted. Rests on the spec's own decision D9 (log entry 8). -/
def Obligations.FaultsArePrecise : Prop :=
  ∀ s t : State, ¬ s.halted → step s = .next t → t.halted →
    t.faultPc = s.pc ∧ t.faultOpcode = (if 0xFFE < s.pc.toNat then 0 else s.fetchWord) ∧
    t.events = [] ∧ t.pc = s.pc ∧ Frame (fun p => p = .faultRegs ∨ p = .events ∨ p = .input) s t

/-- R143: only `reset`, alone or inside an accepted `load_program`, leaves the halt; every other host operation keeps
the fault registers as they are, and after a reset they are 0. -/
def Obligations.OnlyResetLeavesTheHalt : Prop :=
  ∀ (op : HostOp) (s : State), s.halted →
    (op = .reset ∨ (∃ bytes, op = .loadProgram bytes ∧ bytes.length ≤ 3584) →
      (hostOp op s).1.faultCode = 0 ∧ (hostOp op s).1.faultPc = 0 ∧ (hostOp op s).1.faultOpcode = 0 ∧
      (hostOp op s).1.faultInfo = 0) ∧
    (¬ (op = .reset ∨ (∃ bytes, op = .loadProgram bytes ∧ bytes.length ≤ 3584)) →
      Part.faultRegs.same s (hostOp op s).1)

/-! ### Rules about the whole machine -/

/-- Which instructions can change which part of the state (R26, R27, R28, R32 to R36, R50): the rules' "only". -/
def Obligations.WritersOfEveryPart : Prop :=
  ∀ (i : Instr) (s t : State), exec i s = .next t →
    (t.drawFlag ≠ s.drawFlag → ∃ x y n, i = .drw x y n) ∧
    (t.sp ≠ s.sp → i = .ret ∨ ∃ nnn, i = .call nnn) ∧
    ((∃ j : Fin 16, t.stackAt j ≠ s.stackAt j) → ∃ nnn, i = .call nnn) ∧
    (t.dt ≠ s.dt → ∃ x, i = .ldDtVx x) ∧
    (t.st ≠ s.st → ∃ x, i = .ldStVx x) ∧
    (t.i ≠ s.i → (∃ nnn, i = .ldI nnn) ∨ ∃ x, i = .addI x ∨ i = .ldF x ∨ i = .storeRegs x ∨ i = .loadRegs x) ∧
    ((∃ a, t.memRead a ≠ s.memRead a) → ∃ x, i = .ldB x ∨ i = .storeRegs x) ∧
    ((∃ idx, t.pixelAt idx ≠ s.pixelAt idx) → i = .cls ∨ ∃ x y n, i = .drw x y n) ∧
    t.key = s.key ∧ t.opcode = s.opcode ∧ t.events = s.events ∧ t.rndIn = s.rndIn ∧ t.rndCount = s.rndCount

/-- R42: only Cxkk reads rnd. A step that does not execute one comes to the same state whichever byte the host
supplies. (The supply of bytes is a list in State by the model's own choice, log entry 5.) -/
def Obligations.OnlyRndReadsTheInput : Prop :=
  ∀ (a b : Byte) (s t u : State), (∀ x kk, decode s.fetchWord ≠ .instr (.rnd x kk)) →
    step (supplyRnd a s) = .next t → step (supplyRnd b s) = .next u → t = u

/-- What no instruction reads has no influence: from two states that differ only in draw_flag, the latch, the event
list and FAULT_PC, FAULT_OPCODE, FAULT_INFO, a step comes to two states that again differ only there, and emits the
same events (R34, R36, R38, R46). The event list is a field of State by the model's own choice (log entry 4). -/
def Obligations.HostOnlyStateHasNoInfluence : Prop :=
  ∀ s s' t t' : State, SameToPrograms s s' → step s = .next t → step s' = .next t' →
    SameToPrograms t t' ∧ t'.events = t.events

/-! ### Reset and the host (spec/10_state.md, spec/70_reset_and_hazards.md) -/

/-- R157: reset, from any state: every register, the stack, the timers, the screen, the keys, the latch and the fault
registers 0, pc 0x200, memory the fontset and then 0; no event. (FONT's bytes are the parameter's, log entry 2.)
Rests on the spec's own decisions D9, D20, D22 (log entry 8). -/
def Obligations.ResetSetsEveryState : Prop :=
  ∀ s : State,
    (∀ r, (hostReset s).readV r = 0) ∧ (hostReset s).i = 0 ∧ (hostReset s).pc = 0x200 ∧
    (hostReset s).sp.val = 0 ∧ (∀ j, (hostReset s).stackAt j = 0) ∧ (hostReset s).dt = 0 ∧ (hostReset s).st = 0 ∧
    (∀ idx, (hostReset s).pixelAt idx = false) ∧ (hostReset s).drawFlag = false ∧
    (∀ k, (hostReset s).keyDown k = false) ∧ (hostReset s).opcode = 0 ∧ (hostReset s).faultCode = 0 ∧
    (hostReset s).faultPc = 0 ∧ (hostReset s).faultOpcode = 0 ∧ (hostReset s).faultInfo = 0 ∧
    (hostReset s).events = [] ∧ hardware.font.length = 80 ∧
    (∀ a, ∀ h : a < hardware.font.length, (hostReset s).memRead a = hardware.font[a]) ∧
    (∀ a, 80 ≤ a → (hostReset s).memRead a = 0)

/-- R159 and R160, load_program: more than 3584 bytes is LoadError and changes nothing; else a reset, then the image
at 0x200, and the first fetch reads its first two bytes. Rests on the spec's own decision D21 (log entry 8). -/
def Obligations.LoadProgramResetsThenCopies : Prop :=
  ∀ (bytes : List Byte) (s : State),
    (3584 < bytes.length → hostOp (.loadProgram bytes) s = (s, .loadError)) ∧
    (bytes.length ≤ 3584 → ∃ t, hostOp (.loadProgram bytes) s = (t, .loaded) ∧
      (∀ k, ∀ h : k < bytes.length, t.memRead (0x200 + k) = bytes[k]) ∧
      t.pc = 0x200 ∧ ¬ t.halted ∧ Frame (bytesAt 0x200 bytes.length) (hostReset s) t)

/-- key_write sets one key (R41); draw_flag_clear clears the flag, fb_read and draw_flag_read change nothing and
answer what they name (R43); status_read answers the fault registers and step(rnd) its events (R44); none of the
writes touches any other part of the state. That a step's events are held in State, and its rnd input in the list
rndIn, of which the step takes one byte, are the model's own choices (log entries 4 and 5, DESIGN CHOICE). -/
def Obligations.HostOperationsTouchOnlyTheirPart : Prop :=
  ∀ (k : Reg) (b : Bool) (rnd : Byte) (s : State),
    (∃ t, hostOp (.keyWrite k b) s = (t, .done) ∧ t.keyDown k = b ∧ t.pc = s.pc ∧
      Frame (fun p => p = .key k) s t) ∧
    (∃ t, hostOp .drawFlagClear s = (t, .done) ∧ t.drawFlag = false ∧ t.pc = s.pc ∧
      Frame (fun p => p = .drawFlag) s t) ∧
    (∃ ps : List Bool, hostOp .fbRead s = (s, .pixels ps) ∧ ps.length = 2048 ∧
      ∀ idx < 2048, ps[idx]? = some (s.pixelAt idx)) ∧
    hostOp .drawFlagRead s = (s, .flag s.drawFlag) ∧
    hostOp .statusRead s = (s, .status s.faultCode s.faultPc s.faultOpcode s.faultInfo) ∧
    (∃ t, step { s with rndIn := rnd :: s.rndIn } = .next t ∧ hostOp (.step rnd) s = (t, .events t.events) ∧
      t.rndIn = s.rndIn)

/-! ### Memory and invariants -/

/-- The canonical form is canonical: two memories in the form that read alike at every address are the same list (the
model's own, log entry 1). -/
def Obligations.CanonicalMemoryIsUnique : Prop :=
  ∀ m m' : Memory, m.wf → m'.wf → (∀ a, a < memSize → m.read a = m'.read a) → m = m'

/-- The invariant of the block, `State.Inv`, holds after reset. Two of its parts are the model's own: the canonical
list form of memory (log entry 1) and the event list as a field of State, its DecodeWarning naming the latch (log
entries 4 and 9). -/
def Obligations.ResetMeetsTheInvariant : Prop := State.reset.Inv

/-- Every step keeps the invariant, from every state that meets it, reachable or not: memory canonical and inside
0x000..0xFFF, the fault registers a true record of the fault (R38, R138, R141, R143), the event list that of one step
(R87, R92). Parts of it are the model's own, no words of those rules: the canonical list form of memory (log entry
1), the event list as a field of State (log entry 4), and that a DecodeWarning names the opcode in the latch, since
an Unknown step writes the latch (log entry 9). -/
def Obligations.StepKeepsTheInvariant : Prop :=
  ∀ s t : State, s.Inv → step s = .next t → t.Inv

/-- Every sequence of host operations, steps among them, keeps the invariant (the operations are those of R40). Parts
of the invariant are the model's own: the canonical list form of memory (log entry 1), the event list as a field of
State (log entry 4), and that a DecodeWarning names the opcode in the latch (log entry 9). -/
def Obligations.HostRunsKeepTheInvariant : Prop :=
  ∀ (ops : List HostOp) (s : State), s.Inv → (hostRun ops s).1.Inv
end

