-- ==== Sys2Proof/Laws/State.lean ====
section
/-! SUPPORT. What each update of the state leaves and what it writes, field by field, all tagged simp: for an update
`f`, `f_keeps` says which fields and reads it leaves, and `f_writes` what it puts into the fields it writes. -/

namespace Sys2Proof.Machine

section
variable (s : State)

/-- What `writeV` leaves (R13, R20). -/
@[simp] theorem State.writeV_keeps (r : Reg) (b : Byte) :
    (s.writeV r b).i = s.i ∧ (s.writeV r b).pc = s.pc ∧ (s.writeV r b).sp = s.sp ∧
    (s.writeV r b).stack = s.stack ∧ (s.writeV r b).dt = s.dt ∧ (s.writeV r b).st = s.st ∧
    (s.writeV r b).mem = s.mem ∧ (s.writeV r b).fb = s.fb ∧ (s.writeV r b).drawFlag = s.drawFlag ∧
    (s.writeV r b).key = s.key ∧ (s.writeV r b).opcode = s.opcode ∧ (s.writeV r b).faultCode = s.faultCode ∧
    (s.writeV r b).faultPc = s.faultPc ∧ (s.writeV r b).faultOpcode = s.faultOpcode ∧
    (s.writeV r b).faultInfo = s.faultInfo ∧ (s.writeV r b).events = s.events ∧
    (s.writeV r b).rndIn = s.rndIn ∧ (s.writeV r b).rndCount = s.rndCount ∧
    (∀ j, (s.writeV r b).stackAt j = s.stackAt j) ∧ (∀ a, (s.writeV r b).memRead a = s.memRead a) ∧
    (∀ n, (s.writeV r b).pixelAt n = s.pixelAt n) ∧ (∀ q, (s.writeV r b).keyDown q = s.keyDown q) := by
  and_intros <;> intros <;> rfl

/-- What `writeFlag` leaves (R21). -/
@[simp] theorem State.writeFlag_keeps (f : Bool) :
    (s.writeFlag f).i = s.i ∧ (s.writeFlag f).pc = s.pc ∧ (s.writeFlag f).sp = s.sp ∧
    (s.writeFlag f).stack = s.stack ∧ (s.writeFlag f).dt = s.dt ∧ (s.writeFlag f).st = s.st ∧
    (s.writeFlag f).mem = s.mem ∧ (s.writeFlag f).fb = s.fb ∧ (s.writeFlag f).drawFlag = s.drawFlag ∧
    (s.writeFlag f).key = s.key ∧ (s.writeFlag f).opcode = s.opcode ∧ (s.writeFlag f).faultCode = s.faultCode ∧
    (s.writeFlag f).faultPc = s.faultPc ∧ (s.writeFlag f).faultOpcode = s.faultOpcode ∧
    (s.writeFlag f).faultInfo = s.faultInfo ∧ (s.writeFlag f).events = s.events ∧
    (s.writeFlag f).rndIn = s.rndIn ∧ (s.writeFlag f).rndCount = s.rndCount ∧
    (∀ j, (s.writeFlag f).stackAt j = s.stackAt j) ∧ (∀ a, (s.writeFlag f).memRead a = s.memRead a) ∧
    (∀ n, (s.writeFlag f).pixelAt n = s.pixelAt n) ∧ (∀ q, (s.writeFlag f).keyDown q = s.keyDown q) := by
  and_intros <;> intros <;> rfl

/-- What `loadV` leaves (R123). -/
@[simp] theorem State.loadV_keeps (x : Reg) (b : Reg → Byte) :
    (s.loadV x b).i = s.i ∧ (s.loadV x b).pc = s.pc ∧ (s.loadV x b).sp = s.sp ∧ (s.loadV x b).stack = s.stack ∧
    (s.loadV x b).dt = s.dt ∧ (s.loadV x b).st = s.st ∧ (s.loadV x b).mem = s.mem ∧ (s.loadV x b).fb = s.fb ∧
    (s.loadV x b).drawFlag = s.drawFlag ∧ (s.loadV x b).key = s.key ∧ (s.loadV x b).opcode = s.opcode ∧
    (s.loadV x b).faultCode = s.faultCode ∧ (s.loadV x b).faultPc = s.faultPc ∧
    (s.loadV x b).faultOpcode = s.faultOpcode ∧ (s.loadV x b).faultInfo = s.faultInfo ∧
    (s.loadV x b).events = s.events ∧ (s.loadV x b).rndIn = s.rndIn ∧ (s.loadV x b).rndCount = s.rndCount ∧
    (∀ j, (s.loadV x b).stackAt j = s.stackAt j) ∧ (∀ a, (s.loadV x b).memRead a = s.memRead a) ∧
    (∀ n, (s.loadV x b).pixelAt n = s.pixelAt n) ∧ (∀ q, (s.loadV x b).keyDown q = s.keyDown q) := by
  unfold State.loadV
  and_intros <;> intros <;> rfl

/-- What `setPc` leaves (R13). -/
@[simp] theorem State.setPc_keeps (w : Word) :
    (s.setPc w).v = s.v ∧ (s.setPc w).i = s.i ∧ (s.setPc w).sp = s.sp ∧ (s.setPc w).stack = s.stack ∧
    (s.setPc w).dt = s.dt ∧ (s.setPc w).st = s.st ∧ (s.setPc w).mem = s.mem ∧ (s.setPc w).fb = s.fb ∧
    (s.setPc w).drawFlag = s.drawFlag ∧ (s.setPc w).key = s.key ∧ (s.setPc w).opcode = s.opcode ∧
    (s.setPc w).faultCode = s.faultCode ∧ (s.setPc w).faultPc = s.faultPc ∧
    (s.setPc w).faultOpcode = s.faultOpcode ∧ (s.setPc w).faultInfo = s.faultInfo ∧
    (s.setPc w).events = s.events ∧ (s.setPc w).rndIn = s.rndIn ∧ (s.setPc w).rndCount = s.rndCount ∧
    (∀ r, (s.setPc w).readV r = s.readV r) ∧ (∀ j, (s.setPc w).stackAt j = s.stackAt j) ∧
    (∀ a, (s.setPc w).memRead a = s.memRead a) ∧ (∀ n, (s.setPc w).pixelAt n = s.pixelAt n) ∧
    (∀ q, (s.setPc w).keyDown q = s.keyDown q) := by
  and_intros <;> intros <;> rfl

/-- What `setPc` writes (R13). -/
@[simp] theorem State.setPc_writes (w : Word) :
    (s.setPc w).pc = w := rfl

/-- What `advance` leaves (R86). -/
@[simp] theorem State.advance_keeps (k : Nat) :
    (s.advance k).v = s.v ∧ (s.advance k).i = s.i ∧ (s.advance k).sp = s.sp ∧ (s.advance k).stack = s.stack ∧
    (s.advance k).dt = s.dt ∧ (s.advance k).st = s.st ∧ (s.advance k).mem = s.mem ∧ (s.advance k).fb = s.fb ∧
    (s.advance k).drawFlag = s.drawFlag ∧ (s.advance k).key = s.key ∧ (s.advance k).opcode = s.opcode ∧
    (s.advance k).faultCode = s.faultCode ∧ (s.advance k).faultPc = s.faultPc ∧
    (s.advance k).faultOpcode = s.faultOpcode ∧ (s.advance k).faultInfo = s.faultInfo ∧
    (s.advance k).events = s.events ∧ (s.advance k).rndIn = s.rndIn ∧ (s.advance k).rndCount = s.rndCount ∧
    (∀ r, (s.advance k).readV r = s.readV r) ∧ (∀ j, (s.advance k).stackAt j = s.stackAt j) ∧
    (∀ a, (s.advance k).memRead a = s.memRead a) ∧ (∀ n, (s.advance k).pixelAt n = s.pixelAt n) ∧
    (∀ q, (s.advance k).keyDown q = s.keyDown q) := by
  and_intros <;> intros <;> rfl

/-- What `advance` writes (R86). -/
@[simp] theorem State.advance_writes (k : Nat) :
    (s.advance k).pc = s.pc + BitVec.ofNat 16 k := rfl

/-- What `setI` leaves (R13). -/
@[simp] theorem State.setI_keeps (w : Word) :
    (s.setI w).v = s.v ∧ (s.setI w).pc = s.pc ∧ (s.setI w).sp = s.sp ∧ (s.setI w).stack = s.stack ∧
    (s.setI w).dt = s.dt ∧ (s.setI w).st = s.st ∧ (s.setI w).mem = s.mem ∧ (s.setI w).fb = s.fb ∧
    (s.setI w).drawFlag = s.drawFlag ∧ (s.setI w).key = s.key ∧ (s.setI w).opcode = s.opcode ∧
    (s.setI w).faultCode = s.faultCode ∧ (s.setI w).faultPc = s.faultPc ∧
    (s.setI w).faultOpcode = s.faultOpcode ∧ (s.setI w).faultInfo = s.faultInfo ∧
    (s.setI w).events = s.events ∧ (s.setI w).rndIn = s.rndIn ∧ (s.setI w).rndCount = s.rndCount ∧
    (∀ r, (s.setI w).readV r = s.readV r) ∧ (∀ j, (s.setI w).stackAt j = s.stackAt j) ∧
    (∀ a, (s.setI w).memRead a = s.memRead a) ∧ (∀ n, (s.setI w).pixelAt n = s.pixelAt n) ∧
    (∀ q, (s.setI w).keyDown q = s.keyDown q) := by
  and_intros <;> intros <;> rfl

/-- What `setI` writes (R13). -/
@[simp] theorem State.setI_writes (w : Word) :
    (s.setI w).i = w := rfl

/-- What `setDt` leaves (R13). -/
@[simp] theorem State.setDt_keeps (b : Byte) :
    (s.setDt b).v = s.v ∧ (s.setDt b).i = s.i ∧ (s.setDt b).pc = s.pc ∧ (s.setDt b).sp = s.sp ∧
    (s.setDt b).stack = s.stack ∧ (s.setDt b).st = s.st ∧ (s.setDt b).mem = s.mem ∧ (s.setDt b).fb = s.fb ∧
    (s.setDt b).drawFlag = s.drawFlag ∧ (s.setDt b).key = s.key ∧ (s.setDt b).opcode = s.opcode ∧
    (s.setDt b).faultCode = s.faultCode ∧ (s.setDt b).faultPc = s.faultPc ∧
    (s.setDt b).faultOpcode = s.faultOpcode ∧ (s.setDt b).faultInfo = s.faultInfo ∧
    (s.setDt b).events = s.events ∧ (s.setDt b).rndIn = s.rndIn ∧ (s.setDt b).rndCount = s.rndCount ∧
    (∀ r, (s.setDt b).readV r = s.readV r) ∧ (∀ j, (s.setDt b).stackAt j = s.stackAt j) ∧
    (∀ a, (s.setDt b).memRead a = s.memRead a) ∧ (∀ n, (s.setDt b).pixelAt n = s.pixelAt n) ∧
    (∀ q, (s.setDt b).keyDown q = s.keyDown q) := by
  and_intros <;> intros <;> rfl

/-- What `setDt` writes (R13). -/
@[simp] theorem State.setDt_writes (b : Byte) :
    (s.setDt b).dt = b := rfl

/-- What `setSt` leaves (R13). -/
@[simp] theorem State.setSt_keeps (b : Byte) :
    (s.setSt b).v = s.v ∧ (s.setSt b).i = s.i ∧ (s.setSt b).pc = s.pc ∧ (s.setSt b).sp = s.sp ∧
    (s.setSt b).stack = s.stack ∧ (s.setSt b).dt = s.dt ∧ (s.setSt b).mem = s.mem ∧ (s.setSt b).fb = s.fb ∧
    (s.setSt b).drawFlag = s.drawFlag ∧ (s.setSt b).key = s.key ∧ (s.setSt b).opcode = s.opcode ∧
    (s.setSt b).faultCode = s.faultCode ∧ (s.setSt b).faultPc = s.faultPc ∧
    (s.setSt b).faultOpcode = s.faultOpcode ∧ (s.setSt b).faultInfo = s.faultInfo ∧
    (s.setSt b).events = s.events ∧ (s.setSt b).rndIn = s.rndIn ∧ (s.setSt b).rndCount = s.rndCount ∧
    (∀ r, (s.setSt b).readV r = s.readV r) ∧ (∀ j, (s.setSt b).stackAt j = s.stackAt j) ∧
    (∀ a, (s.setSt b).memRead a = s.memRead a) ∧ (∀ n, (s.setSt b).pixelAt n = s.pixelAt n) ∧
    (∀ q, (s.setSt b).keyDown q = s.keyDown q) := by
  and_intros <;> intros <;> rfl

/-- What `setSt` writes (R13). -/
@[simp] theorem State.setSt_writes (b : Byte) :
    (s.setSt b).st = b := rfl

/-- What `memWrite` leaves (R14). -/
@[simp] theorem State.memWrite_keeps (a : Nat) (bs : List Byte) :
    (s.memWrite a bs).v = s.v ∧ (s.memWrite a bs).i = s.i ∧ (s.memWrite a bs).pc = s.pc ∧
    (s.memWrite a bs).sp = s.sp ∧ (s.memWrite a bs).stack = s.stack ∧ (s.memWrite a bs).dt = s.dt ∧
    (s.memWrite a bs).st = s.st ∧ (s.memWrite a bs).fb = s.fb ∧ (s.memWrite a bs).drawFlag = s.drawFlag ∧
    (s.memWrite a bs).key = s.key ∧ (s.memWrite a bs).opcode = s.opcode ∧
    (s.memWrite a bs).faultCode = s.faultCode ∧ (s.memWrite a bs).faultPc = s.faultPc ∧
    (s.memWrite a bs).faultOpcode = s.faultOpcode ∧ (s.memWrite a bs).faultInfo = s.faultInfo ∧
    (s.memWrite a bs).events = s.events ∧ (s.memWrite a bs).rndIn = s.rndIn ∧
    (s.memWrite a bs).rndCount = s.rndCount ∧ (∀ r, (s.memWrite a bs).readV r = s.readV r) ∧
    (∀ j, (s.memWrite a bs).stackAt j = s.stackAt j) ∧ (∀ n, (s.memWrite a bs).pixelAt n = s.pixelAt n) ∧
    (∀ q, (s.memWrite a bs).keyDown q = s.keyDown q) := by
  and_intros <;> intros <;> rfl

/-- What `memWrite` writes (R14). -/
@[simp] theorem State.memWrite_writes (a : Nat) (bs : List Byte) :
    (s.memWrite a bs).mem = s.mem.writeBytes a bs := rfl

/-- What `setScreen` leaves (R13). -/
@[simp] theorem State.setScreen_keeps (f : Screen) :
    (s.setScreen f).v = s.v ∧ (s.setScreen f).i = s.i ∧ (s.setScreen f).pc = s.pc ∧ (s.setScreen f).sp = s.sp ∧
    (s.setScreen f).stack = s.stack ∧ (s.setScreen f).dt = s.dt ∧ (s.setScreen f).st = s.st ∧
    (s.setScreen f).mem = s.mem ∧ (s.setScreen f).drawFlag = s.drawFlag ∧ (s.setScreen f).key = s.key ∧
    (s.setScreen f).opcode = s.opcode ∧ (s.setScreen f).faultCode = s.faultCode ∧
    (s.setScreen f).faultPc = s.faultPc ∧ (s.setScreen f).faultOpcode = s.faultOpcode ∧
    (s.setScreen f).faultInfo = s.faultInfo ∧ (s.setScreen f).events = s.events ∧
    (s.setScreen f).rndIn = s.rndIn ∧ (s.setScreen f).rndCount = s.rndCount ∧
    (∀ r, (s.setScreen f).readV r = s.readV r) ∧ (∀ j, (s.setScreen f).stackAt j = s.stackAt j) ∧
    (∀ a, (s.setScreen f).memRead a = s.memRead a) ∧ (∀ q, (s.setScreen f).keyDown q = s.keyDown q) := by
  and_intros <;> intros <;> rfl

/-- What `setScreen` writes (R13). -/
@[simp] theorem State.setScreen_writes (f : Screen) :
    (s.setScreen f).fb = f := rfl

/-- What `raiseDrawFlag` leaves (R34). -/
@[simp] theorem State.raiseDrawFlag_keeps :
    s.raiseDrawFlag.v = s.v ∧ s.raiseDrawFlag.i = s.i ∧ s.raiseDrawFlag.pc = s.pc ∧ s.raiseDrawFlag.sp = s.sp ∧
    s.raiseDrawFlag.stack = s.stack ∧ s.raiseDrawFlag.dt = s.dt ∧ s.raiseDrawFlag.st = s.st ∧
    s.raiseDrawFlag.mem = s.mem ∧ s.raiseDrawFlag.fb = s.fb ∧ s.raiseDrawFlag.key = s.key ∧
    s.raiseDrawFlag.opcode = s.opcode ∧ s.raiseDrawFlag.faultCode = s.faultCode ∧
    s.raiseDrawFlag.faultPc = s.faultPc ∧ s.raiseDrawFlag.faultOpcode = s.faultOpcode ∧
    s.raiseDrawFlag.faultInfo = s.faultInfo ∧ s.raiseDrawFlag.events = s.events ∧
    s.raiseDrawFlag.rndIn = s.rndIn ∧ s.raiseDrawFlag.rndCount = s.rndCount ∧
    (∀ r, s.raiseDrawFlag.readV r = s.readV r) ∧ (∀ j, s.raiseDrawFlag.stackAt j = s.stackAt j) ∧
    (∀ a, s.raiseDrawFlag.memRead a = s.memRead a) ∧ (∀ n, s.raiseDrawFlag.pixelAt n = s.pixelAt n) ∧
    (∀ q, s.raiseDrawFlag.keyDown q = s.keyDown q) := by
  and_intros <;> intros <;> rfl

/-- What `raiseDrawFlag` writes (R34). -/
@[simp] theorem State.raiseDrawFlag_writes :
    s.raiseDrawFlag.drawFlag = true := rfl

/-- What `takeFault` leaves (R142). -/
@[simp] theorem State.takeFault_keeps (f : Fault) (w : Word) :
    (s.takeFault f w).v = s.v ∧ (s.takeFault f w).i = s.i ∧ (s.takeFault f w).pc = s.pc ∧
    (s.takeFault f w).sp = s.sp ∧ (s.takeFault f w).stack = s.stack ∧ (s.takeFault f w).dt = s.dt ∧
    (s.takeFault f w).st = s.st ∧ (s.takeFault f w).mem = s.mem ∧ (s.takeFault f w).fb = s.fb ∧
    (s.takeFault f w).drawFlag = s.drawFlag ∧ (s.takeFault f w).key = s.key ∧
    (s.takeFault f w).opcode = s.opcode ∧ (s.takeFault f w).events = s.events ∧
    (s.takeFault f w).rndIn = s.rndIn ∧ (s.takeFault f w).rndCount = s.rndCount ∧
    (∀ r, (s.takeFault f w).readV r = s.readV r) ∧ (∀ j, (s.takeFault f w).stackAt j = s.stackAt j) ∧
    (∀ a, (s.takeFault f w).memRead a = s.memRead a) ∧ (∀ n, (s.takeFault f w).pixelAt n = s.pixelAt n) ∧
    (∀ q, (s.takeFault f w).keyDown q = s.keyDown q) := by
  and_intros <;> intros <;> rfl

/-- What `takeFault` writes (R142). -/
@[simp] theorem State.takeFault_writes (f : Fault) (w : Word) :
    (s.takeFault f w).faultCode = f.code ∧ (s.takeFault f w).faultPc = s.pc ∧
    (s.takeFault f w).faultOpcode = s.opcodeFor f ∧ (s.takeFault f w).faultInfo = w := by
  and_intros <;> rfl

/-- What `latched` leaves (R36). -/
@[simp] theorem State.latched_keeps (op : Word) :
    (s.latched op).v = s.v ∧ (s.latched op).i = s.i ∧ (s.latched op).pc = s.pc ∧ (s.latched op).sp = s.sp ∧
    (s.latched op).stack = s.stack ∧ (s.latched op).dt = s.dt ∧ (s.latched op).st = s.st ∧
    (s.latched op).mem = s.mem ∧ (s.latched op).fb = s.fb ∧ (s.latched op).drawFlag = s.drawFlag ∧
    (s.latched op).key = s.key ∧ (s.latched op).faultCode = s.faultCode ∧ (s.latched op).faultPc = s.faultPc ∧
    (s.latched op).faultOpcode = s.faultOpcode ∧ (s.latched op).faultInfo = s.faultInfo ∧
    (s.latched op).rndIn = s.rndIn ∧ (s.latched op).rndCount = s.rndCount ∧
    (∀ r, (s.latched op).readV r = s.readV r) ∧ (∀ j, (s.latched op).stackAt j = s.stackAt j) ∧
    (∀ a, (s.latched op).memRead a = s.memRead a) ∧ (∀ n, (s.latched op).pixelAt n = s.pixelAt n) ∧
    (∀ q, (s.latched op).keyDown q = s.keyDown q) := by
  and_intros <;> intros <;> rfl

/-- What `latched` writes (R36). -/
@[simp] theorem State.latched_writes (op : Word) :
    (s.latched op).opcode = op ∧ (s.latched op).events = [] := by
  and_intros <;> rfl

/-- What `emit` leaves (R16). -/
@[simp] theorem State.emit_keeps (e : Event) :
    (s.emit e).v = s.v ∧ (s.emit e).i = s.i ∧ (s.emit e).pc = s.pc ∧ (s.emit e).sp = s.sp ∧
    (s.emit e).stack = s.stack ∧ (s.emit e).dt = s.dt ∧ (s.emit e).st = s.st ∧ (s.emit e).mem = s.mem ∧
    (s.emit e).fb = s.fb ∧ (s.emit e).drawFlag = s.drawFlag ∧ (s.emit e).key = s.key ∧
    (s.emit e).opcode = s.opcode ∧ (s.emit e).faultCode = s.faultCode ∧ (s.emit e).faultPc = s.faultPc ∧
    (s.emit e).faultOpcode = s.faultOpcode ∧ (s.emit e).faultInfo = s.faultInfo ∧ (s.emit e).rndIn = s.rndIn ∧
    (s.emit e).rndCount = s.rndCount ∧ (∀ r, (s.emit e).readV r = s.readV r) ∧
    (∀ j, (s.emit e).stackAt j = s.stackAt j) ∧ (∀ a, (s.emit e).memRead a = s.memRead a) ∧
    (∀ n, (s.emit e).pixelAt n = s.pixelAt n) ∧ (∀ q, (s.emit e).keyDown q = s.keyDown q) := by
  and_intros <;> intros <;> rfl

/-- What `emit` writes (R16). -/
@[simp] theorem State.emit_writes (e : Event) :
    (s.emit e).events = s.events ++ [e] := rfl

/-- What `tick` leaves (R87, R88). -/
@[simp] theorem State.tick_keeps :
    s.tick.v = s.v ∧ s.tick.i = s.i ∧ s.tick.pc = s.pc ∧ s.tick.sp = s.sp ∧ s.tick.stack = s.stack ∧
    s.tick.mem = s.mem ∧ s.tick.fb = s.fb ∧ s.tick.drawFlag = s.drawFlag ∧ s.tick.key = s.key ∧
    s.tick.opcode = s.opcode ∧ s.tick.faultCode = s.faultCode ∧ s.tick.faultPc = s.faultPc ∧
    s.tick.faultOpcode = s.faultOpcode ∧ s.tick.faultInfo = s.faultInfo ∧ s.tick.rndIn = s.rndIn ∧
    s.tick.rndCount = s.rndCount ∧ (∀ r, s.tick.readV r = s.readV r) ∧ (∀ j, s.tick.stackAt j = s.stackAt j) ∧
    (∀ a, s.tick.memRead a = s.memRead a) ∧ (∀ n, s.tick.pixelAt n = s.pixelAt n) ∧
    (∀ q, s.tick.keyDown q = s.keyDown q) := by
  unfold State.tick State.soundTone
  split <;> and_intros <;> intros <;> rfl

/-- What `tick` writes (R87, R88). -/
@[simp] theorem State.tick_writes :
    s.tick.dt = countDown s.dt ∧ s.tick.st = countDown s.st ∧
    s.tick.events = (if s.st = 1 then s.events ++ [.tone] else s.events) := by
  unfold State.tick State.soundTone
  split <;> and_intros <;> rfl

/-- What `takeInput` leaves (R42). -/
@[simp] theorem State.takeInput_keeps :
    s.takeInput.v = s.v ∧ s.takeInput.i = s.i ∧ s.takeInput.pc = s.pc ∧ s.takeInput.sp = s.sp ∧
    s.takeInput.stack = s.stack ∧ s.takeInput.dt = s.dt ∧ s.takeInput.st = s.st ∧ s.takeInput.mem = s.mem ∧
    s.takeInput.fb = s.fb ∧ s.takeInput.drawFlag = s.drawFlag ∧ s.takeInput.key = s.key ∧
    s.takeInput.opcode = s.opcode ∧ s.takeInput.faultCode = s.faultCode ∧ s.takeInput.faultPc = s.faultPc ∧
    s.takeInput.faultOpcode = s.faultOpcode ∧ s.takeInput.faultInfo = s.faultInfo ∧
    s.takeInput.events = s.events ∧ (∀ r, s.takeInput.readV r = s.readV r) ∧
    (∀ j, s.takeInput.stackAt j = s.stackAt j) ∧ (∀ a, s.takeInput.memRead a = s.memRead a) ∧
    (∀ n, s.takeInput.pixelAt n = s.pixelAt n) ∧ (∀ q, s.takeInput.keyDown q = s.keyDown q) := by
  and_intros <;> intros <;> rfl

/-- What `takeInput` writes (R42). -/
@[simp] theorem State.takeInput_writes :
    s.takeInput.rndIn = s.rndIn.tail ∧ s.takeInput.rndCount = s.rndCount + 1 := by
  and_intros <;> rfl

/-- What `idle` leaves (R83). -/
@[simp] theorem State.idle_keeps :
    s.idle.v = s.v ∧ s.idle.i = s.i ∧ s.idle.pc = s.pc ∧ s.idle.sp = s.sp ∧ s.idle.stack = s.stack ∧
    s.idle.dt = s.dt ∧ s.idle.st = s.st ∧ s.idle.mem = s.mem ∧ s.idle.fb = s.fb ∧
    s.idle.drawFlag = s.drawFlag ∧ s.idle.key = s.key ∧ s.idle.opcode = s.opcode ∧
    s.idle.faultCode = s.faultCode ∧ s.idle.faultPc = s.faultPc ∧ s.idle.faultOpcode = s.faultOpcode ∧
    s.idle.faultInfo = s.faultInfo ∧ (∀ r, s.idle.readV r = s.readV r) ∧
    (∀ j, s.idle.stackAt j = s.stackAt j) ∧ (∀ a, s.idle.memRead a = s.memRead a) ∧
    (∀ n, s.idle.pixelAt n = s.pixelAt n) ∧ (∀ q, s.idle.keyDown q = s.keyDown q) := by
  and_intros <;> intros <;> rfl

/-- What `idle` writes (R83). -/
@[simp] theorem State.idle_writes :
    s.idle.events = [] ∧ s.idle.rndIn = s.rndIn.tail ∧ s.idle.rndCount = s.rndCount + 1 := by
  and_intros <;> rfl

/-- What `abandon` leaves (R15, R81). -/
@[simp] theorem State.abandon_keeps (t : State) :
    (s.abandon t).v = s.v ∧ (s.abandon t).i = s.i ∧ (s.abandon t).pc = s.pc ∧ (s.abandon t).sp = s.sp ∧
    (s.abandon t).stack = s.stack ∧ (s.abandon t).dt = s.dt ∧ (s.abandon t).st = s.st ∧
    (s.abandon t).mem = s.mem ∧ (s.abandon t).fb = s.fb ∧ (s.abandon t).drawFlag = s.drawFlag ∧
    (s.abandon t).key = s.key ∧ (s.abandon t).opcode = s.opcode ∧ (∀ r, (s.abandon t).readV r = s.readV r) ∧
    (∀ j, (s.abandon t).stackAt j = s.stackAt j) ∧ (∀ a, (s.abandon t).memRead a = s.memRead a) ∧
    (∀ n, (s.abandon t).pixelAt n = s.pixelAt n) ∧ (∀ q, (s.abandon t).keyDown q = s.keyDown q) := by
  and_intros <;> intros <;> rfl

/-- What `abandon` writes (R15, R81). -/
@[simp] theorem State.abandon_writes (t : State) :
    (s.abandon t).faultCode = t.faultCode ∧ (s.abandon t).faultPc = t.faultPc ∧
    (s.abandon t).faultOpcode = t.faultOpcode ∧ (s.abandon t).faultInfo = t.faultInfo ∧
    (s.abandon t).events = [] ∧ (s.abandon t).rndIn = s.rndIn.tail ∧ (s.abandon t).rndCount = s.rndCount + 1 := by
  and_intros <;> rfl

/-- What `keyWrite` leaves (R41). -/
@[simp] theorem keyWrite_keeps (k : Reg) (b : Bool) :
    (keyWrite k b s).v = s.v ∧ (keyWrite k b s).i = s.i ∧ (keyWrite k b s).pc = s.pc ∧
    (keyWrite k b s).sp = s.sp ∧ (keyWrite k b s).stack = s.stack ∧ (keyWrite k b s).dt = s.dt ∧
    (keyWrite k b s).st = s.st ∧ (keyWrite k b s).mem = s.mem ∧ (keyWrite k b s).fb = s.fb ∧
    (keyWrite k b s).drawFlag = s.drawFlag ∧ (keyWrite k b s).opcode = s.opcode ∧
    (keyWrite k b s).faultCode = s.faultCode ∧ (keyWrite k b s).faultPc = s.faultPc ∧
    (keyWrite k b s).faultOpcode = s.faultOpcode ∧ (keyWrite k b s).faultInfo = s.faultInfo ∧
    (keyWrite k b s).events = s.events ∧ (keyWrite k b s).rndIn = s.rndIn ∧
    (keyWrite k b s).rndCount = s.rndCount ∧ (∀ r, (keyWrite k b s).readV r = s.readV r) ∧
    (∀ j, (keyWrite k b s).stackAt j = s.stackAt j) ∧ (∀ a, (keyWrite k b s).memRead a = s.memRead a) ∧
    (∀ n, (keyWrite k b s).pixelAt n = s.pixelAt n) := by
  and_intros <;> intros <;> rfl

/-- What `drawFlagClear` leaves (R43). -/
@[simp] theorem drawFlagClear_keeps :
    (drawFlagClear s).v = s.v ∧ (drawFlagClear s).i = s.i ∧ (drawFlagClear s).pc = s.pc ∧
    (drawFlagClear s).sp = s.sp ∧ (drawFlagClear s).stack = s.stack ∧ (drawFlagClear s).dt = s.dt ∧
    (drawFlagClear s).st = s.st ∧ (drawFlagClear s).mem = s.mem ∧ (drawFlagClear s).fb = s.fb ∧
    (drawFlagClear s).key = s.key ∧ (drawFlagClear s).opcode = s.opcode ∧
    (drawFlagClear s).faultCode = s.faultCode ∧ (drawFlagClear s).faultPc = s.faultPc ∧
    (drawFlagClear s).faultOpcode = s.faultOpcode ∧ (drawFlagClear s).faultInfo = s.faultInfo ∧
    (drawFlagClear s).events = s.events ∧ (drawFlagClear s).rndIn = s.rndIn ∧
    (drawFlagClear s).rndCount = s.rndCount ∧ (∀ r, (drawFlagClear s).readV r = s.readV r) ∧
    (∀ j, (drawFlagClear s).stackAt j = s.stackAt j) ∧ (∀ a, (drawFlagClear s).memRead a = s.memRead a) ∧
    (∀ n, (drawFlagClear s).pixelAt n = s.pixelAt n) ∧ (∀ q, (drawFlagClear s).keyDown q = s.keyDown q) := by
  and_intros <;> intros <;> rfl

/-- What `drawFlagClear` writes (R43). -/
@[simp] theorem drawFlagClear_writes :
    (drawFlagClear s).drawFlag = false := rfl

/-- What `supplyRnd` leaves (R42). -/
@[simp] theorem supplyRnd_keeps (b : Byte) :
    (supplyRnd b s).v = s.v ∧ (supplyRnd b s).i = s.i ∧ (supplyRnd b s).pc = s.pc ∧ (supplyRnd b s).sp = s.sp ∧
    (supplyRnd b s).stack = s.stack ∧ (supplyRnd b s).dt = s.dt ∧ (supplyRnd b s).st = s.st ∧
    (supplyRnd b s).mem = s.mem ∧ (supplyRnd b s).fb = s.fb ∧ (supplyRnd b s).drawFlag = s.drawFlag ∧
    (supplyRnd b s).key = s.key ∧ (supplyRnd b s).opcode = s.opcode ∧ (supplyRnd b s).faultCode = s.faultCode ∧
    (supplyRnd b s).faultPc = s.faultPc ∧ (supplyRnd b s).faultOpcode = s.faultOpcode ∧
    (supplyRnd b s).faultInfo = s.faultInfo ∧ (supplyRnd b s).events = s.events ∧
    (supplyRnd b s).rndCount = s.rndCount ∧ (∀ r, (supplyRnd b s).readV r = s.readV r) ∧
    (∀ j, (supplyRnd b s).stackAt j = s.stackAt j) ∧ (∀ a, (supplyRnd b s).memRead a = s.memRead a) ∧
    (∀ n, (supplyRnd b s).pixelAt n = s.pixelAt n) ∧ (∀ q, (supplyRnd b s).keyDown q = s.keyDown q) := by
  and_intros <;> intros <;> rfl

/-- What `supplyRnd` writes (R42). -/
@[simp] theorem supplyRnd_writes (b : Byte) :
    (supplyRnd b s).rndIn = b :: s.rndIn := rfl

end

end Sys2Proof.Machine
end

