-- ==== Sys2Proof/Laws/Memory.lean ====
section
/-! SUPPORT. Memory: reading after writing, and that every memory operation keeps the canonical form. -/

namespace Sys2Proof.Machine

@[simp] theorem Memory.read_nil (a : Nat) : Memory.read [] a = unlistedByte a := rfl

theorem Memory.read_cons (c : Host.Cell) (m : Memory) (a : Nat) :
    Memory.read (c :: m) a = if c.1 = a then c.2 else Memory.read m a := rfl

theorem Memory.unlist_cons (c : Host.Cell) (m : Memory) (a : Nat) :
    Memory.unlist (c :: m) a = if c.1 = a then Memory.unlist m a else c :: Memory.unlist m a := by
  by_cases hc : c.1 = a <;> simp [Memory.unlist, hc]

/-! ### Reading after writing (R54) -/

/-- An address dropped from the list reads as unlisted, every other address as before. -/
theorem Memory.read_unlist (m : Memory) (a a' : Nat) :
    (Memory.unlist m a).read a' = if a' = a then unlistedByte a' else m.read a' := by
  induction m with
  | nil => simp [Memory.unlist]
  | cons c m ih =>
    rw [Memory.unlist_cons, Memory.read_cons]
    split
    · rename_i hc
      rw [ih]
      by_cases ha : a' = a
      · simp [ha]
      · simp [ha, hc, Ne.symm ha]
    · rename_i hc
      rw [Memory.read_cons, ih]
      by_cases ha : a' = a
      · subst ha; simp [hc]
      · simp [ha]

/-- No cell of a dropped address is left. -/
theorem Memory.not_mem_unlist (m : Memory) (a : Nat) : ∀ c ∈ Memory.unlist m a, c.1 ≠ a := by
  intro c hc
  simpa using (List.mem_filter.mp hc).2

/-- A cell listed anew is read at its address, every other address as before. -/
theorem Memory.read_enlist (m : Memory) (a a' : Nat) (b : Byte) (hn : ∀ c ∈ m, c.1 ≠ a) :
    (Memory.enlist m a b).read a' = if a' = a then b else m.read a' := by
  induction m with
  | nil => simp [Memory.enlist, Memory.read_cons, eq_comm]
  | cons c m ih =>
    have hc : c.1 ≠ a := hn c List.mem_cons_self
    rw [Memory.enlist]
    split
    · rw [Memory.read_cons]
      simp [eq_comm]
    · rw [Memory.read_cons, ih fun d hd => hn d (List.mem_cons_of_mem c hd), Memory.read_cons]
      by_cases ha : a' = a
      · subst ha; simp [hc]
      · simp [ha]

/-- A read returns the byte last written to that address, and a write leaves every other address alone (R54). -/
theorem Memory.read_write (m : Memory) (a a' : Nat) (b : Byte) :
    (m.write a b).read a' = if a' = a then b else m.read a' := by
  unfold Memory.write
  split
  · rename_i hb
    rw [Memory.read_unlist]
    split
    · rename_i ha; rw [ha, hb]
    · rfl
  · rw [Memory.read_enlist _ _ _ _ (Memory.not_mem_unlist m a), Memory.read_unlist]
    split <;> rfl

/-- Bytes written from `a` on are read in ascending order (R52), and every other address as before. -/
theorem Memory.read_writeBytes (bs : List Byte) (m : Memory) (a a' : Nat) :
    (m.writeBytes a bs).read a' =
      if h : a ≤ a' ∧ a' < a + bs.length then bs[a' - a]'(by omega) else m.read a' := by
  induction bs generalizing m a with
  | nil => simp [Memory.writeBytes]
  | cons b bs ih =>
    rw [Memory.writeBytes, ih, Memory.read_write]
    by_cases ha : a' = a
    · subst ha; simp
    · by_cases h : a + 1 ≤ a' ∧ a' < a + 1 + bs.length
      · have h' : a ≤ a' ∧ a' < a + (b :: bs).length := by simp; omega
        obtain ⟨k, rfl⟩ : ∃ k, a' = a + 1 + k := ⟨a' - (a + 1), by omega⟩
        rw [dif_pos h, dif_pos h']
        have e1 : a + 1 + k - (a + 1) = k := by omega
        have e2 : a + 1 + k - a = k + 1 := by omega
        simp only [e1, e2, List.getElem_cons_succ]
      · have h' : ¬ (a ≤ a' ∧ a' < a + (b :: bs).length) := by simp; omega
        rw [dif_neg h, dif_neg h', if_neg ha]

/-! ### The canonical form -/

theorem Memory.wf_nil : Memory.wf [] := by simp [Memory.wf]

theorem Memory.mem_enlist (m : Memory) (a : Nat) (b : Byte) (c : Host.Cell) :
    c ∈ Memory.enlist m a b → c = (a, b) ∨ c ∈ m := by
  induction m with
  | nil => simp [Memory.enlist]
  | cons d m ih =>
    rw [Memory.enlist]
    split
    · simp
    · intro h
      rcases List.mem_cons.mp h with h | h
      · exact .inr (by simp [h])
      · rcases ih h with h | h
        · exact .inl h
        · exact .inr (List.mem_cons_of_mem d h)

/-- Listing a cell keeps the addresses strictly rising. -/
theorem Memory.pairwise_enlist (m : Memory) (a : Nat) (b : Byte) (hm : m.Pairwise fun c d => c.1 < d.1)
    (hn : ∀ c ∈ m, c.1 ≠ a) : (Memory.enlist m a b).Pairwise fun c d => c.1 < d.1 := by
  induction m with
  | nil => simp [Memory.enlist]
  | cons d m ih =>
    obtain ⟨hd, hm⟩ := List.pairwise_cons.mp hm
    have hda : d.1 ≠ a := hn d List.mem_cons_self
    rw [Memory.enlist]
    split
    · rename_i had
      refine List.pairwise_cons.mpr ⟨?_, List.pairwise_cons.mpr ⟨hd, hm⟩⟩
      intro c hc
      rcases List.mem_cons.mp hc with rfl | hc
      · exact had
      · exact had.trans (hd c hc)
    · refine List.pairwise_cons.mpr ⟨?_, ih hm fun c hc => hn c (List.mem_cons_of_mem d hc)⟩
      intro c hc
      rcases Memory.mem_enlist m a b c hc with rfl | hc
      · simp; omega
      · exact hd c hc

theorem Memory.wf_unlist (m : Memory) (a : Nat) (hm : m.wf) : Memory.wf (Memory.unlist m a) :=
  ⟨hm.1.filter _, fun c hc => hm.2 c (List.mem_filter.mp hc).1⟩

/-- A write inside memory keeps the canonical form. -/
theorem Memory.wf_write (m : Memory) (a : Nat) (b : Byte) (hm : m.wf) (ha : a < memSize) : (m.write a b).wf := by
  unfold Memory.write
  split
  · exact Memory.wf_unlist m a hm
  · rename_i hb
    have hu := Memory.wf_unlist m a hm
    refine ⟨Memory.pairwise_enlist _ a b hu.1 (Memory.not_mem_unlist m a), fun c hc => ?_⟩
    rcases Memory.mem_enlist _ a b c hc with rfl | hc
    · exact ⟨ha, hb⟩
    · exact hu.2 c hc

/-- A write of consecutive bytes inside memory keeps the canonical form. -/
theorem Memory.wf_writeBytes (bs : List Byte) (m : Memory) (a : Nat) (hm : m.wf) (ha : a + bs.length ≤ memSize) :
    (m.writeBytes a bs).wf := by
  induction bs generalizing m a with
  | nil => exact hm
  | cons b bs ih =>
    rw [List.length_cons] at ha
    exact ih (m.write a b) (a + 1) (Memory.wf_write m a b hm (by omega)) (by omega)

/-- The memory after reset is canonical. -/
theorem Memory.wf_reset : State.reset.mem.wf := Memory.wf_nil

end Sys2Proof.Machine
end

