-- ==== Sys2Proof/Laws/Ops.lean ====
section
/-! SUPPORT. One law per shared operation: what it reads after a write, and what it answers. -/

namespace Sys2Proof.Machine

/-! ### Registers -/

@[simp] theorem State.readV_writeV (s : State) (r q : Reg) (b : Byte) :
    (s.writeV r b).readV q = if q = r then b else s.readV q := by
  unfold State.readV State.writeV
  rw [Vector.get_eq_getElem, Vector.getElem_set, Vector.get_eq_getElem]
  simp [Fin.ext_iff, eq_comm]

@[simp] theorem State.readV_writeFlag (s : State) (f : Bool) (q : Reg) :
    (s.writeFlag f).readV q = if q = Reg.vf then (if f then 1 else 0) else s.readV q := by
  unfold State.writeFlag
  rw [State.readV_writeV]

@[simp] theorem State.readV_loadV (s : State) (x q : Reg) (b : Reg → Byte) :
    (s.loadV x b).readV q = if q ≤ x then b q else s.readV q := by
  unfold State.readV State.loadV
  simp [Vector.get_eq_getElem, State.readV]

/-- The first x + 1 registers as a list, entry by entry (R122). -/
theorem State.length_firstRegs (s : State) (x : Reg) : (s.firstRegs x).length = x.val + 1 := by
  simp [State.firstRegs, regCount]

theorem State.getElem_firstRegs (s : State) (x : Reg) (k : Nat) (h : k < (s.firstRegs x).length) :
    (s.firstRegs x)[k] = s.readV ⟨k, by rw [State.length_firstRegs] at h; have := x.isLt; omega⟩ := by
  simp [State.firstRegs, State.readV, Vector.get_eq_getElem]

@[simp] theorem State.pastRegs_keeps (s : State) (x : Reg) :
    (s.pastRegs x).v = s.v ∧ (s.pastRegs x).sp = s.sp ∧ (s.pastRegs x).stack = s.stack ∧
    (s.pastRegs x).dt = s.dt ∧ (s.pastRegs x).st = s.st ∧ (s.pastRegs x).mem = s.mem ∧
    (s.pastRegs x).fb = s.fb ∧ (s.pastRegs x).drawFlag = s.drawFlag ∧ (s.pastRegs x).key = s.key ∧
    (s.pastRegs x).opcode = s.opcode ∧ (s.pastRegs x).faultCode = s.faultCode ∧
    (s.pastRegs x).faultPc = s.faultPc ∧ (s.pastRegs x).faultOpcode = s.faultOpcode ∧
    (s.pastRegs x).faultInfo = s.faultInfo ∧ (s.pastRegs x).events = s.events ∧
    (s.pastRegs x).rndIn = s.rndIn ∧ (s.pastRegs x).rndCount = s.rndCount ∧
    (∀ r, (s.pastRegs x).readV r = s.readV r) ∧ (∀ j, (s.pastRegs x).stackAt j = s.stackAt j) ∧
    (∀ a, (s.pastRegs x).memRead a = s.memRead a) ∧ (∀ n, (s.pastRegs x).pixelAt n = s.pixelAt n) ∧
    (∀ q, (s.pastRegs x).keyDown q = s.keyDown q) := by
  and_intros <;> intros <;> rfl

@[simp] theorem State.pastRegs_writes (s : State) (x : Reg) :
    (s.pastRegs x).i = s.i + BitVec.ofNat 16 (regCount x) ∧ (s.pastRegs x).pc = s.pc + BitVec.ofNat 16 2 := by
  and_intros <;> rfl

/-! ### Memory -/

theorem State.memRead_memWrite (s : State) (a a' : Nat) (bs : List Byte) :
    (s.memWrite a bs).memRead a' =
      if h : a ≤ a' ∧ a' < a + bs.length then bs[a' - a]'(by omega) else s.memRead a' :=
  Memory.read_writeBytes bs s.mem a a'

/-- A write at `a` leaves every byte outside the written ones alone. -/
theorem State.memRead_memWrite_of_not (s : State) (a a' : Nat) (bs : List Byte)
    (h : ¬ (a ≤ a' ∧ a' < a + bs.length)) : (s.memWrite a bs).memRead a' = s.memRead a' := by
  rw [State.memRead_memWrite, dif_neg h]

/-! ### Framebuffer -/

theorem Screen.pixel_flip (f : Screen) (x y x' y' : Nat) :
    (f.flip x y).pixel x' y' = (f.pixel x' y' ^^ decide (x % 64 = x' % 64 ∧ y % 32 = y' % 32)) := by
  unfold Screen.pixel Screen.flip
  simp only [Vector.get_eq_getElem, Fin.val_ofNat, Vector.getElem_set]
  by_cases hy : y % 32 = y' % 32
  · simp only [hy, if_true, BitVec.getLsbD_xor, BitVec.getLsbD_twoPow, and_true]
    congr 1
    simp
    omega
  · simp [hy]

@[simp] theorem Screen.pixel_clear (x y : Nat) : Screen.clear.pixel x y = false := by
  simp [Screen.pixel, Screen.clear, Vector.get_eq_getElem]

/-- A screen is its pixels. -/
theorem Screen.ext_pixel (f g : Screen) (h : ∀ x y, f.pixel x y = g.pixel x y) : f = g := by
  apply Vector.ext
  intro y hy
  apply BitVec.eq_of_getLsbD_eq
  intro x hx
  have := h x y
  simpa [Screen.pixel, Vector.get_eq_getElem, Nat.mod_eq_of_lt hx, Nat.mod_eq_of_lt hy] using this

@[simp] theorem State.pixelAt_setScreen (s : State) (f : Screen) (n : Nat) :
    (s.setScreen f).pixelAt n = f.pixel (n % 64) (n / 64) := rfl

/-! ### Fault entry, ranges, keys -/

@[simp] theorem State.opcodeFor_fetch (s : State) : s.opcodeFor .fetchOutOfRange = 0 := rfl

theorem State.opcodeFor_of_ne (s : State) (f : Fault) (h : f ≠ .fetchOutOfRange) : s.opcodeFor f = s.opcode := by
  cases f <;> simp_all [State.opcodeFor]

theorem Fault.code_ne_zero (f : Fault) : f.code ≠ 0 := by
  cases f <;> decide

theorem rangeFaults_iff (a : Word) (len : Nat) : rangeFaults a len = true ↔ 1 ≤ len ∧ 0xFFF < a.toNat + len - 1 := by
  simp [rangeFaults]

/-- CheckRange answers the fault when the footprint leaves memory, else the rest of the instruction. -/
theorem checkRange_cases (s : State) (len : Nat) (body : Result) :
    (1 ≤ len ∧ 0xFFF < s.i.toNat + len - 1 ∧ checkRange s len body = raise .memOutOfRange s.i s) ∨
    (¬ (1 ≤ len ∧ 0xFFF < s.i.toNat + len - 1) ∧ checkRange s len body = body) := by
  unfold checkRange
  by_cases h : rangeFaults s.i len = true
  · have := (rangeFaults_iff _ _).mp h
    exact .inl ⟨this.1, this.2, by simp [h]⟩
  · exact .inr ⟨fun hh => h ((rangeFaults_iff _ _).mpr hh), by simp [h]⟩

/-- The key skip answers the fault when V[x] is above 0xF, else the rest on that key. -/
theorem withKey_cases (s : State) (x : Reg) (k : Reg → Result) :
    (0xF < (s.readV x).toNat ∧ withKey s x k = raise .keyOutOfRange (zextByte (s.readV x)) s) ∨
    (∃ q : Reg, q.val = (s.readV x).toNat ∧ withKey s x k = k q) := by
  unfold withKey
  by_cases h : (s.readV x).toNat < 16
  · exact .inr ⟨⟨_, h⟩, rfl, by rw [dif_pos h]⟩
  · exact .inl ⟨by omega, by rw [dif_neg h]⟩

/-! ### The call stack -/

/-- The state that `push` hands on. -/
def pushed (s : State) (w : Word) (h : s.sp.val < 16) : State :=
  { s with stack := s.stack.set s.sp.val w h, sp := ⟨s.sp.val + 1, by omega⟩ }

theorem push_cases (s : State) (w : Word) (k : State → Result) :
    (s.sp.val = 16 ∧ push s w k = raise .stackOverflow s.spWord s) ∨
    (∃ h : s.sp.val < 16, push s w k = k (pushed s w h)) := by
  unfold push
  by_cases h : s.sp.val < 16
  · exact .inr ⟨h, by rw [dif_pos h]; rfl⟩
  · have := s.sp.isLt
    exact .inl ⟨by omega, by rw [dif_neg h]⟩

@[simp] theorem pushed_keeps (s : State) (w : Word) (h : s.sp.val < 16) :
    (pushed s w h).v = s.v ∧ (pushed s w h).i = s.i ∧ (pushed s w h).pc = s.pc ∧ (pushed s w h).dt = s.dt ∧
    (pushed s w h).st = s.st ∧ (pushed s w h).mem = s.mem ∧ (pushed s w h).fb = s.fb ∧
    (pushed s w h).drawFlag = s.drawFlag ∧ (pushed s w h).key = s.key ∧ (pushed s w h).opcode = s.opcode ∧
    (pushed s w h).faultCode = s.faultCode ∧ (pushed s w h).faultPc = s.faultPc ∧
    (pushed s w h).faultOpcode = s.faultOpcode ∧ (pushed s w h).faultInfo = s.faultInfo ∧
    (pushed s w h).events = s.events ∧ (pushed s w h).rndIn = s.rndIn ∧ (pushed s w h).rndCount = s.rndCount ∧
    (∀ r, (pushed s w h).readV r = s.readV r) ∧ (∀ a, (pushed s w h).memRead a = s.memRead a) ∧
    (∀ n, (pushed s w h).pixelAt n = s.pixelAt n) ∧ (∀ q, (pushed s w h).keyDown q = s.keyDown q) := by
  and_intros <;> intros <;> rfl

@[simp] theorem pushed_sp (s : State) (w : Word) (h : s.sp.val < 16) : (pushed s w h).sp.val = s.sp.val + 1 := rfl

theorem stackAt_pushed (s : State) (w : Word) (h : s.sp.val < 16) (j : Fin 16) :
    (pushed s w h).stackAt j = if j.val = s.sp.val then w else s.stackAt j := by
  unfold State.stackAt pushed
  rw [Vector.get_eq_getElem, Vector.getElem_set, Vector.get_eq_getElem]
  simp [eq_comm]

/-- The state that `pop` hands on. -/
def popped (s : State) : State := { s with sp := ⟨s.sp.val - 1, by omega⟩ }

theorem pop_cases (s : State) (k : Word → State → Result) :
    (s.sp.val = 0 ∧ pop s k = raise .stackUnderflow s.spWord s) ∨
    (∃ j : Fin 16, s.sp.val = j.val + 1 ∧ pop s k = k (s.stackAt j) (popped s)) := by
  unfold pop
  by_cases h : s.sp.val = 0
  · exact .inl ⟨h, by rw [if_pos h]⟩
  · exact .inr ⟨⟨s.sp.val - 1, by omega⟩, by simp; omega, by rw [if_neg h]; rfl⟩

@[simp] theorem popped_keeps (s : State) :
    (popped s).v = s.v ∧ (popped s).i = s.i ∧ (popped s).pc = s.pc ∧ (popped s).stack = s.stack ∧
    (popped s).dt = s.dt ∧ (popped s).st = s.st ∧ (popped s).mem = s.mem ∧ (popped s).fb = s.fb ∧
    (popped s).drawFlag = s.drawFlag ∧ (popped s).key = s.key ∧ (popped s).opcode = s.opcode ∧
    (popped s).faultCode = s.faultCode ∧ (popped s).faultPc = s.faultPc ∧
    (popped s).faultOpcode = s.faultOpcode ∧ (popped s).faultInfo = s.faultInfo ∧
    (popped s).events = s.events ∧ (popped s).rndIn = s.rndIn ∧ (popped s).rndCount = s.rndCount ∧
    (∀ r, (popped s).readV r = s.readV r) ∧ (∀ j, (popped s).stackAt j = s.stackAt j) ∧
    (∀ a, (popped s).memRead a = s.memRead a) ∧ (∀ n, (popped s).pixelAt n = s.pixelAt n) ∧
    (∀ q, (popped s).keyDown q = s.keyDown q) := by
  and_intros <;> intros <;> rfl

@[simp] theorem popped_sp (s : State) : (popped s).sp.val = s.sp.val - 1 := rfl

/-! ### Keys -/

theorem State.mem_pressedKeys (s : State) (k : Reg) : k ∈ s.pressedKeys ↔ s.keyDown k = true := by
  simp [State.pressedKeys]

theorem State.pairwise_pressedKeys (s : State) : s.pressedKeys.Pairwise (· < ·) :=
  (List.pairwise_lt_finRange 16).filter _

/-- Under `highest` the key taken is pressed and no pressed key is above it (R132). -/
theorem chosenKey_highest (s : State) (k : Reg) (h : chosenKey .highest s.pressedKeys = some k) :
    s.keyDown k = true ∧ ∀ q, s.keyDown q = true → q ≤ k := by
  obtain ⟨front, hf⟩ := List.getLast?_eq_some_iff.mp (show s.pressedKeys.getLast? = some k from h)
  refine ⟨(s.mem_pressedKeys k).mp (by simp [hf]), fun q hq => ?_⟩
  have hq := (s.mem_pressedKeys q).mpr hq
  have hp := s.pairwise_pressedKeys
  rw [hf] at hq hp
  rcases List.mem_append.mp hq with hq | hq
  · exact le_of_lt ((List.pairwise_append.mp hp).2.2 q hq k (by simp))
  · exact le_of_eq (by simpa using hq)

/-- Under `lowest` the key taken is pressed and no pressed key is below it (R132). -/
theorem chosenKey_lowest (s : State) (k : Reg) (h : chosenKey .lowest s.pressedKeys = some k) :
    s.keyDown k = true ∧ ∀ q, s.keyDown q = true → k ≤ q := by
  obtain ⟨rest, hr⟩ := List.head?_eq_some_iff.mp (show s.pressedKeys.head? = some k from h)
  refine ⟨(s.mem_pressedKeys k).mp (by simp [hr]), fun q hq => ?_⟩
  have hq := (s.mem_pressedKeys q).mpr hq
  have hp := s.pairwise_pressedKeys
  rw [hr] at hq hp
  rcases List.mem_cons.mp hq with hq | hq
  · exact le_of_eq hq.symm
  · exact le_of_lt ((List.pairwise_cons.mp hp).1 q hq)

/-- No key is taken exactly when none is pressed, under either priority (R132). -/
theorem chosenKey_eq_none (p : KeyPriority) (s : State) :
    chosenKey p s.pressedKeys = none ↔ ∀ q, s.keyDown q = false := by
  have : chosenKey p s.pressedKeys = none ↔ s.pressedKeys = [] := by
    cases p <;> simp [chosenKey]
  rw [this, List.eq_nil_iff_forall_not_mem]
  simp [State.mem_pressedKeys]

theorem keyDown_keyWrite (s : State) (k q : Reg) (b : Bool) :
    (keyWrite k b s).keyDown q = if q = k then b else s.keyDown q := by
  unfold State.keyDown keyWrite
  rw [Vector.get_eq_getElem, Vector.getElem_set, Vector.get_eq_getElem]
  simp [Fin.ext_iff, eq_comm]

/-! ### Sprites -/

theorem Screen.pixel_mod (f : Screen) (x y : Nat) : f.pixel (x % 64) (y % 32) = f.pixel x y := by
  simp [Screen.pixel, Fin.ofNat]

end Sys2Proof.Machine
end

