-- ==== Sys2Proof/Laws/Blit.lean ====
section
/-! SUPPORT. The XOR-blit engine: what a blit does to one pixel and when it hits. -/

namespace Sys2Proof.Machine

/-- Whether sprite row `r` sets its column `c` on pixel (px, py). -/
def rowCovers (row : Byte) (cx cy c px py : Nat) : Bool :=
  spriteBit row c && decide ((cx + c) % 64 = px % 64 ∧ cy % 32 = py % 32)

/-- One bit of a sprite row, drawn or not. -/
def blitBit (row : Byte) (cx cy : Nat) (q : Blit) (c : Nat) : Blit :=
  if spriteBit row c then blitPixel q (cx + c) cy else q

theorem blitRow_eq (row : Byte) (cx cy : Nat) (p : Blit) :
    blitRow row cx cy p = (List.range 8).foldl (blitBit row cx cy) p := rfl

theorem pixel_blitBit (row : Byte) (cx cy : Nat) (q : Blit) (c px py : Nat) :
    (blitBit row cx cy q c).screen.pixel px py = (q.screen.pixel px py ^^ rowCovers row cx cy c px py) := by
  unfold blitBit rowCovers
  split
  · rename_i h; simp [blitPixel, Screen.pixel_flip, h]
  · rename_i h; simp [h]

theorem hit_blitBit (row : Byte) (cx cy : Nat) (q : Blit) (c : Nat) :
    (blitBit row cx cy q c).hit = (q.hit || (spriteBit row c && q.screen.pixel (cx + c) cy)) := by
  unfold blitBit
  split <;> rename_i h <;> simp [blitPixel, h]

/-- The first `k` columns of a sprite row: each covered pixel is flipped once, since 8 columns never fall on one
column of the 64 twice; and the row hits when a drawn bit's pixel was 1 before it. -/
theorem foldl_blitBit (row : Byte) (cx cy : Nat) (p : Blit) (k : Nat) (hk : k ≤ 64) :
    (∀ px py, ((List.range k).foldl (blitBit row cx cy) p).screen.pixel px py =
      (p.screen.pixel px py ^^ decide (∃ c < k, rowCovers row cx cy c px py = true))) ∧
    ((List.range k).foldl (blitBit row cx cy) p).hit =
      (p.hit || decide (∃ c < k, spriteBit row c = true ∧ p.screen.pixel (cx + c) cy = true)) := by
  induction k with
  | zero => simp
  | succ k ih =>
    obtain ⟨ihp, ihh⟩ := ih (by omega)
    simp only [List.range_succ, List.foldl_append, List.foldl_cons, List.foldl_nil]
    have hdisj : ∀ px py, rowCovers row cx cy k px py = true → ¬ ∃ c < k, rowCovers row cx cy c px py = true := by
      intro px py h1 ⟨c, hc, h2⟩
      simp [rowCovers] at h1 h2
      omega
    constructor
    · intro px py
      rw [pixel_blitBit, ihp]
      cases hrow : rowCovers row cx cy k px py
      · have : (∃ c < k + 1, rowCovers row cx cy c px py = true) ↔ ∃ c < k, rowCovers row cx cy c px py = true := by
          constructor
          · rintro ⟨c, hc, h⟩
            rcases Nat.lt_succ_iff_lt_or_eq.mp hc with hc | rfl
            · exact ⟨c, hc, h⟩
            · simp [hrow] at h
          · rintro ⟨c, hc, h⟩; exact ⟨c, by omega, h⟩
        simp only [this, Bool.xor_false]
      · have h1 := hdisj px py hrow
        have h2 : ∃ c < k + 1, rowCovers row cx cy c px py = true := ⟨k, by omega, hrow⟩
        rw [decide_eq_false h1, decide_eq_true h2]
        simp
    · rw [hit_blitBit, ihh, ihp]
      cases hbit : spriteBit row k
      · have : (∃ c < k + 1, spriteBit row c = true ∧ p.screen.pixel (cx + c) cy = true) ↔
            ∃ c < k, spriteBit row c = true ∧ p.screen.pixel (cx + c) cy = true := by
          constructor
          · rintro ⟨c, hc, h⟩
            rcases Nat.lt_succ_iff_lt_or_eq.mp hc with hc | rfl
            · exact ⟨c, hc, h⟩
            · simp [hbit] at h
          · rintro ⟨c, hc, h⟩; exact ⟨c, by omega, h⟩
        simp only [this, Bool.false_and, Bool.or_false]
      · have h1 := hdisj (cx + k) cy (by simp [rowCovers, hbit])
        rw [decide_eq_false h1]
        have : (∃ c < k + 1, spriteBit row c = true ∧ p.screen.pixel (cx + c) cy = true) ↔
            (∃ c < k, spriteBit row c = true ∧ p.screen.pixel (cx + c) cy = true) ∨
              p.screen.pixel (cx + k) cy = true := by
          constructor
          · rintro ⟨c, hc, h⟩
            rcases Nat.lt_succ_iff_lt_or_eq.mp hc with hc | rfl
            · exact .inl ⟨c, hc, h⟩
            · exact .inr h.2
          · rintro (⟨c, hc, h⟩ | h)
            · exact ⟨c, by omega, h⟩
            · exact ⟨k, by omega, hbit, h⟩
        simp only [this, Bool.decide_or, Bool.true_and, Bool.xor_false, Bool.decide_eq_true, Bool.or_assoc]

/-- A sprite row flips the pixels its 1 bits fall on and no other, and hits when one of them was 1 (R126). -/
theorem pixel_blitRow (row : Byte) (cx cy : Nat) (p : Blit) (px py : Nat) :
    (blitRow row cx cy p).screen.pixel px py =
      (p.screen.pixel px py ^^ decide (∃ c : Nat, c < 8 ∧ rowCovers row cx cy c px py = true)) :=
  (foldl_blitBit row cx cy p 8 (by decide)).1 px py

theorem hit_blitRow (row : Byte) (cx cy : Nat) (p : Blit) :
    (blitRow row cx cy p).hit =
      (p.hit || decide (∃ c : Nat, c < 8 ∧ spriteBit row c = true ∧ p.screen.pixel (cx + c) cy = true)) :=
  (foldl_blitBit row cx cy p 8 (by decide)).2

/-- A blit without rows changes nothing (R126: n = 0). -/
@[simp] theorem blit_zero (rows : Nat → Byte) (cx cy : Nat) (p : Blit) : blit rows cx cy 0 p = p := rfl

/-- A blit of one row more draws that row last. -/
theorem blit_succ (rows : Nat → Byte) (cx cy n : Nat) (p : Blit) :
    blit rows cx cy (n + 1) p = blitRow (rows n) cx (cy + n) (blit rows cx cy n p) := by
  simp [blit, List.range_succ]

/-- The XOR-blit law (R126 to R128): a blit of at most 32 rows flips exactly the pixels the sprite covers, and hits
exactly when a covered pixel was 1. -/
theorem pixel_blit (rows : Nat → Byte) (cx cy n : Nat) (p : Blit) (hn : n ≤ 32) :
    (∀ px py, (blit rows cx cy n p).screen.pixel px py = true ↔
      ((p.screen.pixel px py = true) ≠ Covers rows cx cy n (px % 64) (py % 32))) ∧
    ((blit rows cx cy n p).hit = true ↔
      (p.hit = true ∨ ∃ px py, Covers rows cx cy n (px % 64) (py % 32) ∧ p.screen.pixel px py = true)) := by
  induction n with
  | zero =>
    have : ∀ px py, ¬ Covers rows cx cy 0 px py := by rintro px py ⟨r, c, h, _⟩; omega
    simp [this]
  | succ n ih =>
    obtain ⟨ih1, ih2⟩ := ih (by omega)
    have hrow : ∀ px py, (∃ c : Nat, c < 8 ∧ rowCovers (rows n) cx (cy + n) c px py = true) ↔
        ∃ c, c < 8 ∧ (rows n).getLsbD (7 - c) = true ∧ (cx + c) % 64 = px % 64 ∧ (cy + n) % 32 = py % 32 := by
      intro px py; simp [rowCovers, spriteBit]
    -- the rows drawn after row n is added: the earlier ones, or row n
    have hcov : ∀ px py, Covers rows cx cy (n + 1) (px % 64) (py % 32) ↔ Covers rows cx cy n (px % 64) (py % 32) ∨
        (∃ c : Nat, c < 8 ∧ rowCovers (rows n) cx (cy + n) c px py = true) := by
      intro px py; rw [hrow]
      constructor
      · rintro ⟨r, c, hr, hc, h⟩
        rcases Nat.lt_succ_iff_lt_or_eq.mp hr with hr | rfl
        · exact .inl ⟨r, c, hr, hc, h⟩
        · exact .inr ⟨c, hc, h⟩
      · rintro (⟨r, c, hr, hc, h⟩ | ⟨c, hc, h⟩)
        · exact ⟨r, c, by omega, hc, h⟩
        · exact ⟨n, c, by omega, hc, h⟩
    -- at most 32 rows: row n lies on no row drawn before it
    have hdis : ∀ px py, (∃ c : Nat, c < 8 ∧ rowCovers (rows n) cx (cy + n) c px py = true) →
        ¬ Covers rows cx cy n (px % 64) (py % 32) := by
      intro px py; rw [hrow]
      rintro ⟨c, hc, _, _, h1⟩ ⟨r, c', hr, hc', _, _, h2⟩
      omega
    constructor
    · intro px py
      rw [blit_succ, pixel_blitRow, hcov]
      by_cases h : (∃ c : Nat, c < 8 ∧ rowCovers (rows n) cx (cy + n) c px py = true)
      · have hd := hdis px py h
        have e : (blit rows cx cy n p).screen.pixel px py = p.screen.pixel px py := by
          rw [Bool.eq_iff_iff, ih1 px py]; simp [hd]
        simp only [h, hd, or_true, decide_true, Bool.xor_true]
        rw [e]; simp
      · simp only [h, or_false, decide_false, Bool.xor_false, ih1 px py]
    · rw [blit_succ, hit_blitRow]
      simp only [Bool.or_eq_true, ih2, decide_eq_true_eq]
      constructor
      · rintro ((h | ⟨px, py, h1, h2⟩) | ⟨c, hc, h1, h2⟩)
        · exact .inl h
        · exact .inr ⟨px, py, (hcov px py).mpr (.inl h1), h2⟩
        · have hrr : ∃ c' : Nat, c' < 8 ∧ rowCovers (rows n) cx (cy + n) c' (cx + c) (cy + n) = true :=
            ⟨c, hc, by simp [rowCovers, h1]⟩
          refine .inr ⟨cx + c, cy + n, (hcov _ _).mpr (.inr hrr), ?_⟩
          simpa [hdis _ _ hrr] using (ih1 (cx + c) (cy + n)).mp h2
      · rintro (h | ⟨px, py, h1, h2⟩)
        · exact .inl (.inl h)
        · rcases (hcov px py).mp h1 with h1 | h1
          · exact .inl (.inr ⟨px, py, h1, h2⟩)
          · obtain ⟨c, hc, hb, hx, hy⟩ := (hrow px py).mp h1
            refine .inr ⟨c, hc, hb, ?_⟩
            rw [← Screen.pixel_mod, hx, hy, Screen.pixel_mod, ih1]
            simp [hdis px py h1, h2]

end Sys2Proof.Machine
end

