-- ==== Sys2Proof/Laws/Decode.lean ====
section
/-! SUPPORT. The fields of an opcode and its formats: a format's fields read back, a word is its fields, and what a
row's mask says of the fields. -/

namespace Sys2Proof

@[simp] theorem regBits_toFin (r : Reg) : (regBits r).toFin = r := rfl

@[simp] theorem regBits_of_toFin (b : BitVec 4) : regBits b.toFin = b := rfl

/-! ### The fields of an encoded format (R66) -/

@[simp] theorem fields_formatNNN (c : BitVec 4) (nnn : Addr) :
    classOf (formatNNN c nnn) = c ∧ fieldNnn (formatNNN c nnn) = nnn := by
  constructor
  · simp only [classOf, formatNNN]
    rw [BitVec.extractLsb'_append_eq_of_le (by decide)]
    simp
  · simp only [fieldNnn, formatNNN]
    rw [BitVec.extractLsb'_append_eq_of_add_le (by decide)]
    simp

@[simp] theorem fields_formatXKK (c : BitVec 4) (x : Reg) (kk : Byte) :
    classOf (formatXKK c x kk) = c ∧ fieldX (formatXKK c x kk) = x ∧ fieldKk (formatXKK c x kk) = kk := by
  refine ⟨?_, ?_, ?_⟩
  · simp only [classOf, formatXKK]
    rw [BitVec.extractLsb'_append_eq_of_le (by decide), BitVec.extractLsb'_append_eq_of_le (by decide)]
    simp
  · simp only [fieldX, formatXKK]
    rw [BitVec.extractLsb'_append_eq_of_le (by decide), BitVec.extractLsb'_append_eq_of_add_le (by decide)]
    simp
  · simp only [fieldKk, formatXKK]
    rw [BitVec.extractLsb'_append_eq_of_add_le (by decide)]
    simp

@[simp] theorem fields_formatXYN (c : BitVec 4) (x y : Reg) (n : BitVec 4) :
    classOf (formatXYN c x y n) = c ∧ fieldX (formatXYN c x y n) = x ∧ fieldY (formatXYN c x y n) = y ∧
    fieldN (formatXYN c x y n) = n := by
  refine ⟨?_, ?_, ?_, ?_⟩
  · simp only [classOf, formatXYN]
    rw [BitVec.extractLsb'_append_eq_of_le (by decide), BitVec.extractLsb'_append_eq_of_le (by decide),
      BitVec.extractLsb'_append_eq_of_le (by decide)]
    simp
  · simp only [fieldX, formatXYN]
    rw [BitVec.extractLsb'_append_eq_of_le (by decide), BitVec.extractLsb'_append_eq_of_le (by decide),
      BitVec.extractLsb'_append_eq_of_add_le (by decide)]
    simp
  · simp only [fieldY, formatXYN]
    rw [BitVec.extractLsb'_append_eq_of_le (by decide), BitVec.extractLsb'_append_eq_of_add_le (by decide)]
    simp
  · simp only [fieldN, formatXYN]
    rw [BitVec.extractLsb'_append_eq_of_add_le (by decide)]
    simp

/-! ### What a row's mask says (R75) -/

/-- Two words that agree under a mask agree on every field the mask covers. -/
theorem classOf_of_and {op m p : Word} (h : op &&& m = p) (hm : classOf m = 0xF) : classOf op = classOf p := by
  have := congrArg classOf h
  unfold classOf at *
  rw [BitVec.extractLsb'_and, hm] at this
  rw [← this]
  exact (BitVec.and_allOnes (x := BitVec.extractLsb' 12 4 op)).symm

theorem fieldN_of_and {op m p : Word} (h : op &&& m = p) (hm : fieldN m = 0xF) : fieldN op = fieldN p := by
  have := congrArg fieldN h
  unfold fieldN at *
  rw [BitVec.extractLsb'_and, hm] at this
  rw [← this]
  exact (BitVec.and_allOnes (x := BitVec.extractLsb' 0 4 op)).symm

theorem fieldKk_of_and {op m p : Word} (h : op &&& m = p) (hm : fieldKk m = 0xFF) : fieldKk op = fieldKk p := by
  have := congrArg fieldKk h
  unfold fieldKk at *
  rw [BitVec.extractLsb'_and, hm] at this
  rw [← this]
  exact (BitVec.and_allOnes (x := BitVec.extractLsb' 0 8 op)).symm

/-! ### Rejections -/

/-- A 16-bit word is never rejected for missing bytes. -/
theorem decode_ne_truncated (op : Word) : decode op ≠ .truncated := by
  unfold decode decodeClass0 decodeClass8 decodeClassE decodeClassF
  repeat' split
  all_goals simp

/-- `Unknown(op)` names the word that was decoded (R76). -/
theorem decode_eq_unknown {op op' : Word} (h : decode op = .unknown op') : op' = op := by
  unfold decode decodeClass0 decodeClass8 decodeClassE decodeClassF at h
  repeat' split at h
  all_goals first
    | exact (Decoded.unknown.inj h).symm
    | simp at h

/-! ### A word is its fields -/

theorem formatNNN_fields (op : Word) : formatNNN (classOf op) (fieldNnn op) = op := by
  apply BitVec.eq_of_getLsbD_eq
  intro k hk
  simp only [formatNNN, classOf, fieldNnn, BitVec.getLsbD_append, BitVec.getLsbD_extractLsb']
  split
  · simp [*]
  · simp [show k - 12 < 4 by omega, show 12 + (k - 12) = k by omega]

theorem formatXKK_fields (op : Word) : formatXKK (classOf op) (fieldX op) (fieldKk op) = op := by
  apply BitVec.eq_of_getLsbD_eq
  intro k hk
  simp only [formatXKK, classOf, fieldX, fieldKk, regBits_of_toFin, BitVec.getLsbD_append,
    BitVec.getLsbD_extractLsb']
  split
  · simp [*]
  · split
    · simp [show k - 8 < 4 by omega, show 8 + (k - 8) = k by omega]
    · simp [show k - 8 - 4 < 4 by omega, show 12 + (k - 8 - 4) = k by omega]

theorem formatXYN_fields (op : Word) : formatXYN (classOf op) (fieldX op) (fieldY op) (fieldN op) = op := by
  apply BitVec.eq_of_getLsbD_eq
  intro k hk
  simp only [formatXYN, classOf, fieldX, fieldY, fieldN, regBits_of_toFin, BitVec.getLsbD_append,
    BitVec.getLsbD_extractLsb']
  split
  · simp [*]
  · split
    · simp [show k - 4 < 4 by omega, show 4 + (k - 4) = k by omega]
    · split
      · simp [show k - 4 - 4 < 4 by omega, show 8 + (k - 4 - 4) = k by omega]
      · simp [show k - 4 - 4 - 4 < 4 by omega, show 12 + (k - 4 - 4 - 4) = k by omega]

/-! ### Bytes and words (R51, R64) -/

@[simp] theorem opcodeOfBytes_high_low (op : Word) : opcodeOfBytes (highByte op) (lowByte op) = op := by
  unfold opcodeOfBytes highByte lowByte
  apply BitVec.eq_of_getLsbD_eq
  intro k hk
  rw [BitVec.getLsbD_append]
  by_cases h : k < 8
  · simp [h]
  · simp [h]
    have : k - 8 < 8 := by omega
    simp [this, show 8 + (k - 8) = k by omega]

/-- The opcode of two bytes as a number: `memory[PC] << 8 | memory[PC+1]` (R51). -/
theorem toNat_opcodeOfBytes (hi lo : Byte) : (opcodeOfBytes hi lo).toNat = hi.toNat * 256 + lo.toNat := by
  have := lo.isLt
  rw [opcodeOfBytes, BitVec.toNat_append, Nat.shiftLeft_eq, Nat.mul_comm, ← Nat.two_pow_add_eq_or_of_lt this,
    Nat.mul_comm]

end Sys2Proof
end

