-- ==== Sys2Proof/Laws/PerInstr.lean ====
section
/-! SUPPORT. The per-instruction family `EncodesInItsRow`: every instruction's encoding lies in that instruction's row
of the opcode map, whatever its operands (R66, R75). -/

namespace Sys2Proof.Laws

theorem and_nibble (c : BitVec 4) : c &&& 0xF = c := BitVec.and_allOnes

theorem and_byte (b : Byte) : b &&& 0xFF = b := BitVec.and_allOnes

/-- A class mask keeps the class and clears the address. -/
theorem mask_formatNNN (c : BitVec 4) (nnn : Addr) : formatNNN c nnn &&& 0xF000 = c ++ 0x000#12 := by
  rw [show (0xF000 : Word) = 0xF#4 ++ 0x000#12 from rfl, formatNNN, BitVec.and_append]
  exact congrArg₂ _ (and_nibble c) BitVec.and_zero

/-- A class mask keeps the class and clears both fields. -/
theorem mask_formatXKK (c : BitVec 4) (x : Reg) (kk : Byte) : formatXKK c x kk &&& 0xF000 = c ++ 0x0#4 ++ 0x00#8 := by
  rw [show (0xF000 : Word) = 0xF#4 ++ 0x0#4 ++ 0x00#8 from rfl, formatXKK, BitVec.and_append, BitVec.and_append]
  exact congrArg₂ _ (congrArg₂ _ (and_nibble c) BitVec.and_zero) BitVec.and_zero

/-- The mask of class and low byte keeps both and clears x. -/
theorem maskByte_formatXKK (c : BitVec 4) (x : Reg) (kk : Byte) : formatXKK c x kk &&& 0xF0FF = c ++ 0x0#4 ++ kk := by
  rw [show (0xF0FF : Word) = 0xF#4 ++ 0x0#4 ++ 0xFF#8 from rfl, formatXKK, BitVec.and_append, BitVec.and_append]
  exact congrArg₂ _ (congrArg₂ _ (and_nibble c) BitVec.and_zero) (and_byte kk)

/-- A class mask keeps the class and clears x, y and n. -/
theorem mask_formatXYN (c : BitVec 4) (x y : Reg) (n : BitVec 4) :
    formatXYN c x y n &&& 0xF000 = c ++ 0x0#4 ++ 0x0#4 ++ 0x0#4 := by
  rw [show (0xF000 : Word) = 0xF#4 ++ 0x0#4 ++ 0x0#4 ++ 0x0#4 from rfl, formatXYN, BitVec.and_append,
    BitVec.and_append, BitVec.and_append]
  exact congrArg₂ _ (congrArg₂ _ (congrArg₂ _ (and_nibble c) BitVec.and_zero) BitVec.and_zero) BitVec.and_zero

/-- The mask of class and low nibble keeps both and clears x and y. -/
theorem maskNibble_formatXYN (c : BitVec 4) (x y : Reg) (n : BitVec 4) :
    formatXYN c x y n &&& 0xF00F = c ++ 0x0#4 ++ 0x0#4 ++ n := by
  rw [show (0xF00F : Word) = 0xF#4 ++ 0x0#4 ++ 0x0#4 ++ 0xF#4 from rfl, formatXYN, BitVec.and_append,
    BitVec.and_append, BitVec.and_append]
  exact congrArg₂ _ (congrArg₂ _ (congrArg₂ _ (and_nibble c) BitVec.and_zero) BitVec.and_zero) (and_nibble n)

namespace EncodesInItsRow

/-- The encoding of `i` matches the row of the opcode map whose number is `i`'s. -/
def Statement (i : Instr) : Prop :=
  ∃ r ∈ opcodeMap, r.number = i.rowNumber ∧ encode i &&& r.mask = r.pattern

theorem cls : Statement .cls :=
  ⟨⟨1, 0x00E0, 0xF0FF⟩, by decide, rfl, maskByte_formatXKK ..⟩

theorem ret : Statement .ret :=
  ⟨⟨2, 0x00EE, 0xF0FF⟩, by decide, rfl, maskByte_formatXKK ..⟩

theorem jp (nnn : Addr) : Statement (.jp nnn) :=
  ⟨⟨3, 0x1000, 0xF000⟩, by decide, rfl, mask_formatNNN ..⟩

theorem call (nnn : Addr) : Statement (.call nnn) :=
  ⟨⟨4, 0x2000, 0xF000⟩, by decide, rfl, mask_formatNNN ..⟩

theorem seKk (x : Reg) (kk : Byte) : Statement (.seKk x kk) :=
  ⟨⟨5, 0x3000, 0xF000⟩, by decide, rfl, mask_formatXKK ..⟩

theorem sneKk (x : Reg) (kk : Byte) : Statement (.sneKk x kk) :=
  ⟨⟨6, 0x4000, 0xF000⟩, by decide, rfl, mask_formatXKK ..⟩

theorem seVy (x y : Reg) : Statement (.seVy x y) :=
  ⟨⟨7, 0x5000, 0xF000⟩, by decide, rfl, mask_formatXYN ..⟩

theorem ldKk (x : Reg) (kk : Byte) : Statement (.ldKk x kk) :=
  ⟨⟨8, 0x6000, 0xF000⟩, by decide, rfl, mask_formatXKK ..⟩

theorem addKk (x : Reg) (kk : Byte) : Statement (.addKk x kk) :=
  ⟨⟨9, 0x7000, 0xF000⟩, by decide, rfl, mask_formatXKK ..⟩

theorem ldVy (x y : Reg) : Statement (.ldVy x y) :=
  ⟨⟨10, 0x8000, 0xF00F⟩, by decide, rfl, maskNibble_formatXYN ..⟩

theorem orVy (x y : Reg) : Statement (.orVy x y) :=
  ⟨⟨11, 0x8001, 0xF00F⟩, by decide, rfl, maskNibble_formatXYN ..⟩

theorem andVy (x y : Reg) : Statement (.andVy x y) :=
  ⟨⟨12, 0x8002, 0xF00F⟩, by decide, rfl, maskNibble_formatXYN ..⟩

theorem xorVy (x y : Reg) : Statement (.xorVy x y) :=
  ⟨⟨13, 0x8003, 0xF00F⟩, by decide, rfl, maskNibble_formatXYN ..⟩

theorem addVy (x y : Reg) : Statement (.addVy x y) :=
  ⟨⟨14, 0x8004, 0xF00F⟩, by decide, rfl, maskNibble_formatXYN ..⟩

theorem subVy (x y : Reg) : Statement (.subVy x y) :=
  ⟨⟨15, 0x8005, 0xF00F⟩, by decide, rfl, maskNibble_formatXYN ..⟩

theorem shr (x y : Reg) : Statement (.shr x y) :=
  ⟨⟨16, 0x8006, 0xF00F⟩, by decide, rfl, maskNibble_formatXYN ..⟩

theorem subnVy (x y : Reg) : Statement (.subnVy x y) :=
  ⟨⟨17, 0x8007, 0xF00F⟩, by decide, rfl, maskNibble_formatXYN ..⟩

theorem shl (x y : Reg) : Statement (.shl x y) :=
  ⟨⟨18, 0x800E, 0xF00F⟩, by decide, rfl, maskNibble_formatXYN ..⟩

theorem sneVy (x y : Reg) : Statement (.sneVy x y) :=
  ⟨⟨19, 0x9000, 0xF000⟩, by decide, rfl, mask_formatXYN ..⟩

theorem ldI (nnn : Addr) : Statement (.ldI nnn) :=
  ⟨⟨20, 0xA000, 0xF000⟩, by decide, rfl, mask_formatNNN ..⟩

theorem jpV0 (nnn : Addr) : Statement (.jpV0 nnn) :=
  ⟨⟨21, 0xB000, 0xF000⟩, by decide, rfl, mask_formatNNN ..⟩

theorem rnd (x : Reg) (kk : Byte) : Statement (.rnd x kk) :=
  ⟨⟨22, 0xC000, 0xF000⟩, by decide, rfl, mask_formatXKK ..⟩

theorem drw (x y : Reg) (n : Nat) : Statement (.drw x y n) :=
  ⟨⟨23, 0xD000, 0xF000⟩, by decide, rfl, mask_formatXYN ..⟩

theorem skp (x : Reg) : Statement (.skp x) :=
  ⟨⟨24, 0xE09E, 0xF0FF⟩, by decide, rfl, maskByte_formatXKK ..⟩

theorem sknp (x : Reg) : Statement (.sknp x) :=
  ⟨⟨25, 0xE0A1, 0xF0FF⟩, by decide, rfl, maskByte_formatXKK ..⟩

theorem ldVxDt (x : Reg) : Statement (.ldVxDt x) :=
  ⟨⟨26, 0xF007, 0xF0FF⟩, by decide, rfl, maskByte_formatXKK ..⟩

theorem ldVxK (x : Reg) : Statement (.ldVxK x) :=
  ⟨⟨27, 0xF00A, 0xF0FF⟩, by decide, rfl, maskByte_formatXKK ..⟩

theorem ldDtVx (x : Reg) : Statement (.ldDtVx x) :=
  ⟨⟨28, 0xF015, 0xF0FF⟩, by decide, rfl, maskByte_formatXKK ..⟩

theorem ldStVx (x : Reg) : Statement (.ldStVx x) :=
  ⟨⟨29, 0xF018, 0xF0FF⟩, by decide, rfl, maskByte_formatXKK ..⟩

theorem addI (x : Reg) : Statement (.addI x) :=
  ⟨⟨30, 0xF01E, 0xF0FF⟩, by decide, rfl, maskByte_formatXKK ..⟩

theorem ldF (x : Reg) : Statement (.ldF x) :=
  ⟨⟨31, 0xF029, 0xF0FF⟩, by decide, rfl, maskByte_formatXKK ..⟩

theorem ldB (x : Reg) : Statement (.ldB x) :=
  ⟨⟨32, 0xF033, 0xF0FF⟩, by decide, rfl, maskByte_formatXKK ..⟩

theorem storeRegs (x : Reg) : Statement (.storeRegs x) :=
  ⟨⟨33, 0xF055, 0xF0FF⟩, by decide, rfl, maskByte_formatXKK ..⟩

theorem loadRegs (x : Reg) : Statement (.loadRegs x) :=
  ⟨⟨34, 0xF065, 0xF0FF⟩, by decide, rfl, maskByte_formatXKK ..⟩

end EncodesInItsRow

end Sys2Proof.Laws
end

