-- ==== Sys2Proof/Laws/Step.lean ====
section
/-! SUPPORT. What an instruction and a step can do, said once: an instruction enters one fault or leaves the fault
registers, the keys, the latch, the events and the input alone; a step is one of four kinds. And the small laws of runs,
frames, fetching and the tick. -/

namespace Sys2Proof.Machine

/-- What no instruction that completes touches (R35, R36, R38, R42). -/
def SystemKept (s t : State) : Prop :=
  t.faultCode = s.faultCode ∧ t.faultPc = s.faultPc ∧ t.faultOpcode = s.faultOpcode ∧ t.faultInfo = s.faultInfo ∧
  t.key = s.key ∧ t.opcode = s.opcode ∧ t.events = s.events ∧ t.rndIn = s.rndIn ∧ t.rndCount = s.rndCount

/-- `t` is `s` after the entry of a fault that an instruction can raise (R138, R142). -/
def FaultEntered (s t : State) : Prop :=
  ∃ f w, f ≠ Fault.fetchOutOfRange ∧ t = s.takeFault f w

theorem faultEntered_of_raise {s t : State} {f : Fault} {w : Word} (hf : f ≠ .fetchOutOfRange)
    (h : raise f w s = .next t) : FaultEntered s t :=
  ⟨f, w, hf, (Host.Outcome.next.inj h).symm⟩

theorem FaultEntered.halted {s t : State} (h : FaultEntered s t) : t.halted := by
  obtain ⟨f, w, -, rfl⟩ := h
  exact Fault.code_ne_zero f

/-- An instruction that answers a next state has entered a fault, or it leaves the system's own state alone. -/
theorem exec_cases {i : Instr} {s t : State} (h : exec i s = .next t) : FaultEntered s t ∨ SystemKept s t := by
  cases i with
  | ret =>
    rcases pop_cases s fun t s' => .next (s'.setPc (t + 2)) with ⟨_, hp⟩ | ⟨j, _, hp⟩
    · exact .inl (faultEntered_of_raise (by decide) (hp.symm.trans h))
    · obtain rfl := Host.Outcome.next.inj (hp.symm.trans h)
      right; simp [SystemKept]
  | call nnn =>
    rcases push_cases s s.pc fun s' => .next (s'.setPc (zextAddr nnn)) with ⟨_, hp⟩ | ⟨_, hp⟩
    · exact .inl (faultEntered_of_raise (by decide) (hp.symm.trans h))
    · obtain rfl := Host.Outcome.next.inj (hp.symm.trans h)
      right; simp [SystemKept]
  | drw x y n =>
    rcases checkRange_cases s n (.next ((((s.setScreen (s.sprite x y n).screen).writeFlag
      (s.sprite x y n).hit).raiseDrawFlag).advance 2)) with ⟨_, _, hc⟩ | ⟨_, hc⟩
    · exact .inl (faultEntered_of_raise (by decide) (hc.symm.trans h))
    · obtain rfl := Host.Outcome.next.inj (hc.symm.trans h)
      right; simp [SystemKept]
  | ldB x =>
    rcases checkRange_cases s 3 (.next ((s.memWrite s.i.toNat (bcdDigits (s.readV x))).advance 2)) with
      ⟨_, _, hc⟩ | ⟨_, hc⟩
    · exact .inl (faultEntered_of_raise (by decide) (hc.symm.trans h))
    · obtain rfl := Host.Outcome.next.inj (hc.symm.trans h)
      right; simp [SystemKept]
  | storeRegs x =>
    rcases checkRange_cases s (regCount x) (.next ((s.memWrite s.i.toNat (s.firstRegs x)).pastRegs x)) with
      ⟨_, _, hc⟩ | ⟨_, hc⟩
    · exact .inl (faultEntered_of_raise (by decide) (hc.symm.trans h))
    · obtain rfl := Host.Outcome.next.inj (hc.symm.trans h)
      right; simp [SystemKept]
  | loadRegs x =>
    rcases checkRange_cases s (regCount x)
      (.next ((s.loadV x fun r => s.memRead (s.i.toNat + r.val)).pastRegs x)) with ⟨_, _, hc⟩ | ⟨_, hc⟩
    · exact .inl (faultEntered_of_raise (by decide) (hc.symm.trans h))
    · obtain rfl := Host.Outcome.next.inj (hc.symm.trans h)
      right; simp [SystemKept]
  | skp x =>
    rcases withKey_cases s x fun k => skipIf s (s.keyDown k) with ⟨_, hc⟩ | ⟨_, _, hc⟩
    · exact .inl (faultEntered_of_raise (by decide) (hc.symm.trans h))
    · obtain rfl := Host.Outcome.next.inj (hc.symm.trans h)
      right; simp [SystemKept]
  | sknp x =>
    rcases withKey_cases s x fun k => skipIf s (!s.keyDown k) with ⟨_, hc⟩ | ⟨_, _, hc⟩
    · exact .inl (faultEntered_of_raise (by decide) (hc.symm.trans h))
    · obtain rfl := Host.Outcome.next.inj (hc.symm.trans h)
      right; simp [SystemKept]
  | ldVxK x =>
    right
    simp only [exec, execLdVxK] at h
    split at h <;> obtain rfl := Host.Outcome.next.inj h <;> simp [SystemKept]
  | cls | jp | jpV0 | ldI | ldF | addI => obtain rfl := Host.Outcome.next.inj h; right; simp [SystemKept]
  | seKk | sneKk | seVy | sneVy => obtain rfl := Host.Outcome.next.inj h; right; simp [SystemKept]
  | ldKk | addKk | ldVy | orVy | andVy | xorVy | rnd =>
    obtain rfl := Host.Outcome.next.inj h; right; simp [SystemKept]
  | addVy | subVy | shr | subnVy | shl => obtain rfl := Host.Outcome.next.inj h; right; simp [SystemKept]
  | ldVxDt | ldDtVx | ldStVx => obtain rfl := Host.Outcome.next.inj h; right; simp [SystemKept]

/-- In a block that is not halted, an instruction halts it exactly when it enters a fault. -/
theorem exec_halted_iff {i : Instr} {s t : State} (hs : ¬ s.halted) (h : exec i s = .next t) :
    t.halted ↔ FaultEntered s t := by
  constructor
  · intro ht
    rcases exec_cases h with hf | hk
    · exact hf
    · exact absurd (fun h0 => ht (hk.1.trans h0)) hs
  · exact FaultEntered.halted

/-- A step that answers a next state is of one of four kinds: halted, a fetch out of range, an unknown opcode, or a
decoded instruction (R81). -/
theorem step_cases {s t : State} (h : step s = .next t) :
    (s.halted ∧ t = s.idle) ∨
    (¬ s.halted ∧ 0xFFE < s.pc.toNat ∧ t = s.abandon (s.takeFault .fetchOutOfRange s.pc)) ∨
    (¬ s.halted ∧ s.pc.toNat ≤ 0xFFE ∧ decode s.fetchWord = .unknown s.fetchWord ∧
      t = ((s.latched s.fetchWord).emit (.decodeWarning s.fetchWord)).tick.takeInput) ∨
    (¬ s.halted ∧ s.pc.toNat ≤ 0xFFE ∧ ∃ i u, decode s.fetchWord = .instr i ∧
      exec i (s.latched s.fetchWord) = .next u ∧
      t = if u.halted then s.abandon u else u.tick.takeInput) := by
  by_cases hh : s.halted
  · simp only [step, stepWith, if_pos hh] at h
    exact .inl ⟨hh, (Host.Outcome.next.inj h).symm⟩
  · by_cases hf : 0xFFE < s.pc.toNat
    · have hf' : s.fetchFaults = true := by simp [State.fetchFaults, hf]
      simp only [step, stepWith, if_neg hh, if_pos hf'] at h
      exact .inr (.inl ⟨hh, hf, (Host.Outcome.next.inj h).symm⟩)
    · have hf' : ¬ s.fetchFaults = true := by simp [State.fetchFaults]; omega
      simp only [step, stepWith, if_neg hh, if_neg hf', runDecoded] at h
      have hwarn : closeStep s (warnUnknown s.fetchWord (s.latched s.fetchWord)) = .next t →
          t = ((s.latched s.fetchWord).emit (.decodeWarning s.fetchWord)).tick.takeInput := by
        intro h
        have hn : ¬ ((s.latched s.fetchWord).emit (.decodeWarning s.fetchWord)).halted := hh
        simp only [closeStep, warnUnknown, if_neg hn] at h
        exact (Host.Outcome.next.inj h).symm
      cases hd : decode s.fetchWord with
      | instr i =>
        rw [hd] at h
        cases hx : exec i (s.latched s.fetchWord) with
        | next u =>
          refine .inr (.inr (.inr ⟨hh, by omega, i, u, rfl, hx, ?_⟩))
          simp only [hx, closeStep] at h
          split at h <;> rename_i hu
          · rw [if_pos hu]; exact (Host.Outcome.next.inj h).symm
          · rw [if_neg hu]; exact (Host.Outcome.next.inj h).symm
        | fault f => simp [hx, closeStep] at h
        | refused f => simp [hx, closeStep] at h
      | unknown op =>
        rw [hd] at h
        exact .inr (.inr (.inl ⟨hh, by omega, by rw [decode_eq_unknown hd], hwarn h⟩))
      | truncated => exact absurd hd (decode_ne_truncated _)

/-! ### Runs, frames, fetching, the tick -/

/-- One step more of a run. -/
theorem run_succ_of_step {n : Nat} {s t : State} (h : step s = .next t) :
    Host.Core.run Sys2Proof.core (n + 1) s = Host.Core.run Sys2Proof.core n t := by
  have gen : ∀ (M : Host.Core) (s t : M.State), M.step s = .next t → M.run (n + 1) s = M.run n t := by
    intro M s t h
    simp [Host.Core.run, h]
  exact gen Sys2Proof.core s t h

theorem Frame.refl {may : Part → Prop} (s : State) : Frame may s s := by
  intro p _
  cases p <;> simp [Part.same]

theorem Frame.trans {may : Part → Prop} {s t u : State} (hst : Frame may s t) (htu : Frame may t u) :
    Frame may s u := by
  intro p hp
  have h1 := hst p hp
  have h2 := htu p hp
  cases p <;> simp_all [Part.same]

/-- The fetched opcode depends on pc and memory alone (R82). -/
theorem fetchWord_congr {s t : State} (hpc : t.pc = s.pc) (hm : ∀ a, t.memRead a = s.memRead a) :
    t.fetchWord = s.fetchWord := by
  unfold State.fetchWord
  rw [hpc, hm, hm]

/-- A countdown as a number: minus 1, floored at 0 (R88). -/
theorem toNat_countDown (b : Byte) : (countDown b).toNat = b.toNat - 1 := by
  revert b; decide

/-- The state that `withFetchWord` gives is not halted, can fetch, and fetches the table word. -/
theorem fetchWord_withFetchWord (s : State) (nbits w : Nat) :
    ¬ (s.withFetchWord nbits w).halted ∧ (s.withFetchWord nbits w).pc.toNat ≤ 0xFFE ∧
    (s.withFetchWord nbits w).fetchWord = tableWord nbits w := by
  have hpc : s.readyToFetch.pc.toNat ≤ 0xFFE := by
    unfold State.readyToFetch State.fetchFaults progBase
    by_cases h : 0xFFE < s.pc.toNat
    · simp [h]
    · simp [h]; omega
  refine ⟨fun h => h rfl, hpc, ?_⟩
  have hpc' : (s.withFetchWord nbits w).pc = s.readyToFetch.pc := rfl
  have hr : ∀ k, (s.withFetchWord nbits w).memRead k = (s.readyToFetch.memWrite s.readyToFetch.pc.toNat
      [highByte (tableWord nbits w), lowByte (tableWord nbits w)]).memRead k := fun _ => rfl
  unfold State.fetchWord
  rw [hpc', hr, hr, State.memRead_memWrite, State.memRead_memWrite]
  simp

end Sys2Proof.Machine
end

