-- ==== Sys2Proof/Tests/Slice0.lean ====
section
/-! SUPPORT. Tests: the well-formedness check, words written out from the spec's encodings, one-step tests whose
expected results are the vectors of spec/95_test_vectors.md, and a witness for every statement with hypotheses. -/

namespace Sys2Proof.Tests

open Sys2Proof.Machine

/-! ### Well-formedness (the one check: n is 0 to 15) -/

theorem test_wf_drw_16_refused : (Instr.drw 0 0 16).wellFormed = false := by decide

theorem test_wf_drw_15_accepted : (Instr.drw 0 0 15).wellFormed = true := by decide

/-! ### Decoding: one word per row, bit by bit from R66 and R75 -/

theorem test_decode_flow :
    decode 0b0000_0000_1110_0000 = .instr .cls ∧ decode 0b0000_0000_1110_1110 = .instr .ret ∧
    decode 0b0001_0010_0011_0100 = .instr (.jp 0x234) ∧ decode 0b0010_0011_0000_0001 = .instr (.call 0x301) ∧
    decode 0b0011_0001_0100_0010 = .instr (.seKk 1 0x42) ∧ decode 0b0100_0001_0100_0010 = .instr (.sneKk 1 0x42) ∧
    decode 0b0101_0001_0010_0000 = .instr (.seVy 1 2) ∧ decode 0b1001_0001_0010_0000 = .instr (.sneVy 1 2) ∧
    decode 0b1011_0011_0000_0001 = .instr (.jpV0 0x301) := by decide

theorem test_decode_alu :
    decode 0b0110_1010_0100_0010 = .instr (.ldKk 10 0x42) ∧ decode 0b0111_0001_1111_1111 = .instr (.addKk 1 0xFF) ∧
    decode 0b1000_0001_0010_0000 = .instr (.ldVy 1 2) ∧ decode 0b1000_0001_0010_0001 = .instr (.orVy 1 2) ∧
    decode 0b1000_0001_0010_0010 = .instr (.andVy 1 2) ∧ decode 0b1000_0001_0010_0011 = .instr (.xorVy 1 2) ∧
    decode 0b1000_0001_0010_0100 = .instr (.addVy 1 2) ∧ decode 0b1000_0001_0010_0101 = .instr (.subVy 1 2) ∧
    decode 0b1000_0001_0101_0110 = .instr (.shr 1 5) ∧ decode 0b1000_0001_0010_0111 = .instr (.subnVy 1 2) ∧
    decode 0b1000_0001_0101_1110 = .instr (.shl 1 5) ∧ decode 0b1100_0011_0000_1111 = .instr (.rnd 3 0x0F) := by
  decide

theorem test_decode_rest :
    decode 0b1010_0010_0010_1010 = .instr (.ldI 0x22A) ∧ decode 0b1101_0001_0010_0101 = .instr (.drw 1 2 5) ∧
    decode 0b1110_0001_1001_1110 = .instr (.skp 1) ∧ decode 0b1110_0001_1010_0001 = .instr (.sknp 1) ∧
    decode 0b1111_0001_0000_0111 = .instr (.ldVxDt 1) ∧ decode 0b1111_0010_0000_1010 = .instr (.ldVxK 2) ∧
    decode 0b1111_0001_0001_0101 = .instr (.ldDtVx 1) ∧ decode 0b1111_0001_0001_1000 = .instr (.ldStVx 1) ∧
    decode 0b1111_0001_0001_1110 = .instr (.addI 1) ∧ decode 0b1111_0001_0010_1001 = .instr (.ldF 1) ∧
    decode 0b1111_1010_0011_0011 = .instr (.ldB 10) ∧ decode 0b1111_0010_0101_0101 = .instr (.storeRegs 2) ∧
    decode 0b1111_0010_0110_0101 = .instr (.loadRegs 2) := by decide

/-- Bits that are not examined (DR2, CF14), and words that decode to nothing (SC1, AL32, KT6). -/
theorem test_decode_ignored_and_unknown :
    decode 0x03E0 = .instr .cls ∧ decode 0x5121 = .instr (.seVy 1 2) ∧ decode 0x912F = .instr (.sneVy 1 2) ∧
    decode 0x0000 = .unknown 0x0000 ∧ decode 0x8128 = .unknown 0x8128 ∧ decode 0xE1A2 = .unknown 0xE1A2 ∧
    decode 0xF1FF = .unknown 0xF1FF ∧ decodeBytes [0xA2] = .truncated := by decide

/-- Two bytes are one opcode, high byte first (P1, L1-8). -/
theorem test_decode_bytes :
    decodeBytes [0xA2, 0x2A] = .instr (.ldI 0x22A) ∧ encodeBytes (.drw 1 2 5) = [0xD1, 0x25] ∧
    decodeTableWord 16 0xD125 = some (.drw 1 2 5) := by decide

/-! ### One step on a small state -/

/-- The reset state with `op` at 0x200 (the vectors' starting point). -/
def given (op : Word) : State := State.reset.withOpcode op

/-- What one step leaves meets `p`. -/
def after (s : State) (p : State → Bool) : Bool :=
  match step s with
  | .next t => p t
  | .fault _ => false
  | .refused _ => false

/-- The fault registers, as the vectors write them. -/
def faultOf (s : State) : BitVec 3 × Word × Word × Word := (s.faultCode, s.faultPc, s.faultOpcode, s.faultInfo)

set_option maxRecDepth 4000

theorem test_CF1_jp : after (given 0x1234) (fun t => t.pc == 0x234) = true := by decide

theorem test_CF4_call : after { given 0x2300 with sp := 15 }
    (fun t => t.stackAt 15 == 0x200 && t.sp == 16 && t.pc == 0x300) = true := by decide

theorem test_CF5_call_full : after { given 0x2300 with sp := 16 }
    (fun t => faultOf t == (1, 0x200, 0x2300, 16) && t.pc == 0x200 && t.sp == 16) = true := by decide

theorem test_CF8_ret : after { given 0x00EE with sp := 1, stack := State.reset.stack.set 0 0xFFD }
    (fun t => t.pc == 0xFFF && t.sp == 0 && t.stackAt 0 == 0xFFD) = true := by decide

theorem test_CF7_ret_empty : after { given 0x00EE with dt := 5 }
    (fun t => faultOf t == (2, 0x200, 0x00EE, 0) && t.dt == 5 && t.opcode == 0) = true := by decide

theorem test_CF9_seKk : after ((given 0x3142).writeV 1 0x42) (fun t => t.pc == 0x204) = true := by decide

theorem test_CF10_seKk : after ((given 0x3143).writeV 1 0x42) (fun t => t.pc == 0x202) = true := by decide

theorem test_CF11_sneKk : after ((given 0x4142).writeV 1 0x42) (fun t => t.pc == 0x202) = true := by decide

theorem test_CF12_sneKk : after ((given 0x4100).writeV 1 0x42) (fun t => t.pc == 0x204) = true := by decide

theorem test_CF14_seVy : after (((given 0x5121).writeV 1 7).writeV 2 7) (fun t => t.pc == 0x204) = true := by decide

theorem test_CF15_seVy : after (((given 0x5120).writeV 1 7).writeV 2 8) (fun t => t.pc == 0x202) = true := by decide

theorem test_CF16_sneVy : after (((given 0x9120).writeV 1 1).writeV 2 2) (fun t => t.pc == 0x204) = true := by decide

theorem test_CF17_sneVy : after ((given 0x9110).writeV 1 1) (fun t => t.pc == 0x202) = true := by decide

theorem test_CF19_jpV0 : after ((given 0xBFFF).writeV 0 0xFF) (fun t => t.pc == 0x10FE) = true := by decide

theorem test_AL1_ldKk : after (given 0x6A42) (fun t => t.readV 10 == 0x42 && t.pc == 0x202) = true := by decide

theorem test_AL3_addKk : after (((given 0x71FF).writeV 1 5).writeV 15 9)
    (fun t => t.readV 1 == 4 && t.readV 15 == 9) = true := by decide

theorem test_AL5_ldVy : after ((given 0x8120).writeV 2 0x37) (fun t => t.readV 1 == 0x37) = true := by decide

theorem test_AL6_orVy : after ((((given 0x8121).writeV 1 0xF0).writeV 2 0x0F).writeV 15 7)
    (fun t => t.readV 1 == 0xFF && t.readV 15 == 7) = true := by decide

theorem test_AL7_andVy : after (((given 0x8122).writeV 1 0xF0).writeV 2 0x3C) (fun t => t.readV 1 == 0x30) = true := by
  decide

theorem test_AL8_xorVy : after (((given 0x8123).writeV 1 0xF0).writeV 2 0x3C) (fun t => t.readV 1 == 0xCC) = true := by
  decide

theorem test_AL11_addVy : after (((given 0x8124).writeV 1 0xFF).writeV 2 1)
    (fun t => t.readV 1 == 0 && t.readV 15 == 1) = true := by decide

theorem test_AL15_addVy_into_VF : after (((given 0x8F14).writeV 15 0xFF).writeV 1 2) (fun t => t.readV 15 == 1) = true := by
  decide

theorem test_AL18_subVy : after (((given 0x8125).writeV 1 3).writeV 2 5)
    (fun t => t.readV 1 == 0xFE && t.readV 15 == 0) = true := by decide

theorem test_AL19_subVy_equal : after ((((given 0x8125).writeV 1 7).writeV 2 7).writeV 15 3)
    (fun t => t.readV 1 == 0 && t.readV 15 == 0) = true := by decide

theorem test_AL23_shr : after (((given 0x8156).writeV 1 3).writeV 5 0xFF)
    (fun t => t.readV 1 == 1 && t.readV 15 == 1 && t.pc == 0x202) = true := by decide

theorem test_AL24_shr_of_VF : after ((given 0x8F06).writeV 15 3) (fun t => t.readV 15 == 1) = true := by decide

theorem test_AL25_subnVy : after (((given 0x8127).writeV 1 3).writeV 2 5)
    (fun t => t.readV 1 == 2 && t.readV 15 == 1) = true := by decide

theorem test_AL28_shl : after ((given 0x810E).writeV 1 0x81) (fun t => t.readV 1 == 2 && t.readV 15 == 1) = true := by
  decide

theorem test_AL33_rnd : after (supplyRnd 0xB7 (given 0xC30F)) (fun t => t.readV 3 == 7) = true := by decide

theorem test_MM1_ldI : after (given 0xA22A) (fun t => t.i == 0x22A && t.pc == 0x202) = true := by decide

theorem test_MM4_addI : after { given 0xF11E with i := 0xFFF } (fun t => t.i == 0xFFF && t.readV 15 == 0) = true := by
  decide

theorem test_MM5_addI_wraps : after ({ given 0xF11E with i := 0xFFFF }.writeV 1 2)
    (fun t => t.i == 1 && t.readV 15 == 1) = true := by decide

theorem test_MM9_ldF : after ((given 0xF129).writeV 1 0xFF) (fun t => t.i == 0x4FB) = true := by decide

theorem test_MM13_ldB : after ({ given 0xF133 with i := 0xFFD }.writeV 1 0xFF)
    (fun t => t.memRead 0xFFD == 2 && t.memRead 0xFFE == 5 && t.memRead 0xFFF == 5) = true := by decide

theorem test_MM14_ldB_out : after ({ given 0xF133 with i := 0xFFE }.writeV 1 0xFF)
    (fun t => faultOf t == (3, 0x200, 0xF133, 0xFFE) && t.memRead 0xFFE == 0) = true := by decide

theorem test_MM15_storeRegs : after ((({ given 0xF255 with i := 0x300 }.writeV 0 1).writeV 1 2).writeV 2 3)
    (fun t => t.memRead 0x300 == 1 && t.memRead 0x301 == 2 && t.memRead 0x302 == 3 && t.i == 0x303) = true := by decide

theorem test_MM19_storeRegs_out : after { given 0xFF55 with i := 0xFF1 }
    (fun t => faultOf t == (3, 0x200, 0xFF55, 0xFF1) && t.i == 0xFF1) = true := by decide

theorem test_MM20_loadRegs : after (({ given 0xF265 with i := 0x300 }.memWrite 0x300 [2, 5, 4]).writeV 3 0x33)
    (fun t => t.readV 0 == 2 && t.readV 1 == 5 && t.readV 2 == 4 && t.readV 3 == 0x33 && t.i == 0x303) = true := by
  decide

theorem test_MM22_loadRegs_out : after { given 0xF065 with i := 0x1000 }
    (fun t => faultOf t == (3, 0x200, 0xF065, 0x1000)) = true := by decide

theorem test_DR1_cls : after { given 0x00E0 with fb := (Screen.clear.flip 0 0).flip 63 31 }
    (fun t => t.fb == Screen.clear && t.drawFlag == false) = true := by decide

/-- DR3: glyph 0 at (0, 0); bit x of a row is pixel x. -/
theorem test_DR3_drw : after (given 0xD015)
    (fun t => t.fb.toList.take 6 == [0xF, 0x9, 0x9, 0x9, 0xF, 0x0] && t.readV 15 == 0 && t.drawFlag) = true := by decide

theorem test_DR4_drw_hits : after { given 0xD011 with fb := Screen.clear.flip 0 0 }
    (fun t => t.fb.toList.take 2 == [0xE, 0x0] && t.readV 15 == 1) = true := by decide

theorem test_KT1_skp : after (keyWrite 5 true ((given 0xE19E).writeV 1 5)) (fun t => t.pc == 0x204 && t.keyDown 5) = true := by
  decide

theorem test_KT5_skp_out : after ({ given 0xE19E with dt := 3 }.writeV 1 0x10)
    (fun t => faultOf t == (5, 0x200, 0xE19E, 0x10) && t.dt == 3) = true := by decide

theorem test_KT3_sknp : after ((given 0xE1A1).writeV 1 5) (fun t => t.pc == 0x204) = true := by decide

theorem test_KT4_sknp : after (keyWrite 5 true ((given 0xE1A1).writeV 1 5)) (fun t => t.pc == 0x202) = true := by decide

theorem test_KT7_ldVxDt : after { given 0xF107 with dt := 4 } (fun t => t.readV 1 == 4 && t.dt == 3) = true := by decide

theorem test_KT9_ldVxK : after (keyWrite 9 true (keyWrite 3 true (given 0xF20A)))
    (fun t => t.readV 2 == 9 && t.pc == 0x202) = true := by decide

theorem test_KT10_ldVxK_waits : after { given 0xF20A with dt := 2, st := 2 }
    (fun t => t.pc == 0x200 && t.readV 2 == 0 && t.dt == 1 && t.st == 1) = true := by decide

theorem test_KT12_ldDtVx : after ((given 0xF115).writeV 1 5) (fun t => t.dt == 4) = true := by decide

theorem test_KT14_ldStVx : after ((given 0xF118).writeV 1 1) (fun t => t.events == [.tone] && t.st == 0) = true := by
  decide

theorem test_KT15_ldStVx : after ((given 0xF118).writeV 1 3) (fun t => t.events == [] && t.st == 2) = true := by decide

/-! ### The step, the host, the fontset -/

theorem test_SC2_unknown : after { given 0xF1FF with dt := 1, st := 1 }
    (fun t => t.events == [.decodeWarning 0xF1FF, .tone] && t.pc == 0x200 && t.dt == 0 && t.st == 0) = true := by decide

theorem test_SC3_fetch_out : after { State.reset with pc := 0xFFF } (fun t => faultOf t == (4, 0xFFF, 0, 0xFFF)) = true := by
  decide

theorem test_SC5_halted : after { given 0x6A42 with faultCode := 1, dt := 3, st := 3 }
    (fun t => t.events == [] && t.dt == 3 && t.st == 3 && t.pc == 0x200 && t.readV 10 == 0) = true := by decide

theorem test_RL1_font : State.reset.memRead 0x000 = 0xF0 ∧ State.reset.memRead 0x004 = 0xF0 ∧
    State.reset.memRead 0x04B = 0xF0 ∧ State.reset.memRead 0x04C = 0x80 ∧ State.reset.memRead 0x04F = 0x80 ∧
    State.reset.memRead 0x050 = 0 := by decide

theorem test_RL5_load_resets :
    (hostOp (.loadProgram [0xA2, 0x2A]) { State.reset with faultCode := 3 }).1 = given 0xA22A := by decide

theorem test_fetchword_runs : after (State.reset.withFetchWord 16 0x6A42) (fun t => t.readV 10 == 0x42) = true := by
  decide

/-! ### Witnesses: a state and operands that meet the hypotheses of each statement, every clause at its boundary -/

/-- Words under a row's mask, the premise of every `MatchDecodes`, one word for each row. -/
theorem witness_MatchDecodes :
    List.zipWith (fun (op : Word) (r : OpcodeRow) => op &&& r.mask == r.pattern)
      ([0x03E0, 0x00EE, 0x1FFF, 0x2300, 0x3142, 0x4142, 0x5121, 0x6A42, 0x71FF, 0x8120, 0x8121, 0x8122] ++
       [0x8123, 0x8124, 0x8125, 0x8156, 0x8127, 0x810E, 0x912F, 0xA22A, 0xBFFF, 0xC30F, 0xD015, 0xE19E] ++
       [0xE1A1, 0xF107, 0xF20A, 0xF115, 0xF118, 0xF11E, 0xF129, 0xF133, 0xFF55, 0xF065]) opcodeMap =
    List.replicate 34 true := by decide

theorem witness_DecodeOfEncodeIsIdentity :
    (Instr.drw 15 15 15).wellFormed = true ∧ (Instr.drw 0 0 0).wellFormed = true ∧ Instr.ret.wellFormed = true := by decide

theorem witness_EncodeOfDecodeKeepsExaminedBits :
    decode 0x5120 = .instr (.seVy 1 2) ∧
    (0x512F : Word) &&& (Instr.seVy 1 2).examinedBits = 0x5120 &&& (Instr.seVy 1 2).examinedBits := by decide

theorem witness_DecodeFollowsOpcodeMap :
    (⟨7, 0x5000, 0xF000⟩ : OpcodeRow) ∈ opcodeMap ∧ (0x512F : Word) &&& 0xF000 = 0x5000 := by decide

/-- Every clause of R76 has a word, and so has its complement. -/
theorem witness_UnknownWordsAreExactlyListed :
    decode 0x0000 = .unknown 0x0000 ∧ decode 0x812F = .unknown 0x812F ∧ decode 0xE1A2 = .unknown 0xE1A2 ∧
    decode 0xF1FF = .unknown 0xF1FF ∧ decode 0x812E = .instr (.shl 1 2) := by decide

theorem witness_RetResumesAfterTheCall :
    State.reset.sp.val = 0 ∧ { State.reset with sp := 1 }.sp.val = (0 : Fin 16).val + 1 ∧
    { State.reset with sp := 16 }.sp.val = (15 : Fin 16).val + 1 := by decide

theorem witness_CallPushesItsOwnAddress :
    { State.reset with sp := 16 }.sp.val = 16 ∧ State.reset.sp.val = (0 : Fin 16).val ∧
    { State.reset with sp := 15 }.sp.val = (15 : Fin 16).val := by decide

/-- Both branches of the flag and of the skip conditions, and x other than F. -/
theorem witness_conditions :
    (1 : Reg) ≠ Reg.vf ∧ State.reset.readV 0 = 0 ∧ ((State.reset.writeV 1 1).readV 1 ≠ 0) ∧
    State.reset.rndIn = [] := by decide

theorem witness_CallThenRetReturns :
    { State.reset with sp := 15 }.sp.val < 16 ∧ ∃ t, exec (.call 0x300) { State.reset with sp := 15 } = .next t ∧
      { t with dt := 9 }.sp = t.sp ∧ ∀ j : Fin 16, { t with dt := 9 }.stackAt j = t.stackAt j :=
  ⟨by decide, _, rfl, rfl, fun _ => rfl⟩

/-- A flag-setting instruction that changes V1 and does not fault in a block that is not halted. -/
theorem witness_WritersOfRegisters :
    ∃ t, exec (.addVy 1 2) (State.reset.writeV 2 1) = .next t ∧ t.readV 1 ≠ (State.reset.writeV 2 1).readV 1 ∧
      (Instr.addVy 1 2).setsFlag = true ∧ t.faultCode = (State.reset.writeV 2 1).faultCode ∧
      ¬ (State.reset.writeV 2 1).halted :=
  ⟨_, rfl, by decide, by decide, by decide, by decide⟩

theorem witness_BcdStoresTheDigits :
    0xFFD < { State.reset with i := 0xFFE }.i.toNat ∧ { State.reset with i := 0xFFD }.i.toNat ≤ 0xFFD := by decide

theorem witness_StoreAndLoadRegs :
    0xFFF < { State.reset with i := 0xFF1 }.i.toNat + (15 : Reg).val ∧
    { State.reset with i := 0xFF0 }.i.toNat + (15 : Reg).val ≤ 0xFFF ∧ (15 : Reg) ≤ 15 ∧
    0xFFF < { State.reset with i := 0x1000 }.i.toNat + (0 : Reg).val ∧
    { State.reset with i := 0xFFF }.i.toNat + (0 : Reg).val ≤ 0xFFF := by decide

theorem witness_StoreThenLoadRestoresRegisters :
    ∃ t, exec (.storeRegs 1) ({ State.reset with i := 0xFFE }.writeV 1 7) = .next t ∧
      ({ State.reset with i := 0xFFE }.writeV 1 7).i.toNat + (1 : Reg).val ≤ 0xFFF ∧
      (∀ a : Nat, { t with i := 0xFFE, v := State.reset.v }.memRead a = t.memRead a) ∧
      { t with i := 0xFFE, v := State.reset.v }.i = ({ State.reset with i := 0xFFE }.writeV 1 7).i :=
  ⟨_, rfl, by decide, fun _ => rfl, rfl⟩

/-- n = 0 with I outside memory, n = 1 and n = 15 that just fit, n = 2 and n = 15 that just do not. -/
theorem witness_DrwFlipsExactlyTheSpritePixels :
    (0 = 0 ∨ { State.reset with i := 0x1000 }.i.toNat + 0 - 1 ≤ 0xFFF) ∧
    { State.reset with i := 0xFFF }.i.toNat + 1 - 1 ≤ 0xFFF ∧ { State.reset with i := 0xFF1 }.i.toNat + 15 - 1 ≤ 0xFFF ∧
    0xFFF < { State.reset with i := 0xFFF }.i.toNat + 2 - 1 ∧
    0xFFF < { State.reset with i := 0xFF2 }.i.toNat + 15 - 1 := by decide

/-- Both values of the collision flag occur: glyph 0's first row on a set pixel, and on a clear screen. -/
theorem witness_DrwFlipsExactlyTheSpritePixels_hit :
    (∃ t, exec (.drw 0 0 1) { State.reset with fb := Screen.clear.flip 0 0 } = .next t ∧
      { State.reset with fb := Screen.clear.flip 0 0 }.pixelAt 0 = true ∧ t.pixelAt 0 = false) ∧
    (∃ t, exec (.drw 0 0 1) State.reset = .next t ∧ t.readV .vf = 0 ∧ t.pixelAt 0 = true) :=
  ⟨⟨_, rfl, by decide, by decide⟩, ⟨_, rfl, by decide, by decide⟩⟩

/-- Glyph 0's first row drawn twice on the clear screen (P4's situation): the sprite has a 1 bit and covers pixel 0. -/
theorem witness_DrawingTwiceRestoresTheScreen :
    ∃ t, exec (.drw 0 0 1) State.reset = .next t ∧ (1 = 0 ∨ State.reset.i.toNat + 1 - 1 ≤ 0xFFF) ∧
      (∀ idx < 2048, t.pixelAt idx = t.pixelAt idx) ∧ (∀ a : Nat, t.memRead a = State.reset.memRead a) ∧
      t.i = State.reset.i ∧ t.readV 0 = State.reset.readV 0 ∧
      (∀ idx < 2048, State.reset.spriteCovers 0 0 1 idx → State.reset.pixelAt idx = false) ∧
      State.reset.spriteCovers 0 0 1 0 ∧ ∃ r < 1, State.reset.memRead (State.reset.i.toNat + r) ≠ 0 :=
  ⟨_, rfl, by decide, fun _ _ => rfl, fun _ => rfl, rfl, by decide,
    fun idx _ _ => by simp [State.pixelAt, State.reset, Screen.pixel, Vector.get_eq_getElem],
    ⟨0, 0, by decide, by decide, by decide, by decide, by decide⟩, 0, by decide, by decide⟩

theorem witness_KeySkips :
    0xF < ((State.reset.writeV 1 0x10).readV 1).toNat ∧ ((State.reset.writeV 1 0xF).readV 1).toNat = (15 : Reg).val ∧
    (State.reset.readV 1).toNat = (0 : Reg).val := by decide

/-- No key; and keys 3 and 9, of which 9 is the highest and 3 the lowest. -/
theorem witness_KeyWaitTakesTheHighestKey :
    (∀ k : Reg, State.reset.keyDown k = false) ∧
    (keyWrite 9 true (keyWrite 3 true State.reset)).keyDown 9 = true ∧
    (keyWrite 9 true (keyWrite 3 true State.reset)).keyDown 3 = true ∧
    (∀ q : Reg, (keyWrite 9 true (keyWrite 3 true State.reset)).keyDown q = true → q ≤ 9 ∧ 3 ≤ q) := by decide

/-- A step that executes `i`: the premises of the statements about one decoded instruction. -/
theorem witness_TimerWriteThenTick :
    ¬ (given 0xF115).halted ∧ (given 0xF115).pc.toNat ≤ 0xFFE ∧ decode (given 0xF115).fetchWord = .instr (.ldDtVx 1) ∧
    decode (given 0xF118).fetchWord = .instr (.ldStVx 1) ∧ (∃ t, step (given 0xF115) = .next t) ∧
    ∃ t, step (given 0xF118) = .next t :=
  ⟨by decide, by decide, by decide, by decide, ⟨_, rfl⟩, ⟨_, rfl⟩⟩

theorem witness_KeyWaitRepollsUntilPressed :
    ¬ (given 0xF20A).halted ∧ (given 0xF20A).pc.toNat ≤ 0xFFE ∧ decode (given 0xF20A).fetchWord = .instr (.ldVxK 2) ∧
    ∀ k : Reg, (given 0xF20A).keyDown k = false := by decide

/-- An instruction that completes (CLS) and one that faults (RET on the empty stack). -/
theorem witness_StepRunsTheDecodedInstruction :
    ¬ (given 0x00E0).halted ∧ (given 0x00E0).pc.toNat ≤ 0xFFE ∧ decode (given 0x00E0).fetchWord = .instr .cls ∧
    decode (given 0x00EE).fetchWord = .instr .ret ∧
    (∃ t, exec .cls { given 0x00E0 with opcode := (given 0x00E0).fetchWord, events := [] } = .next t ∧ ¬ t.halted) ∧
    (∃ t, exec .ret { given 0x00EE with opcode := (given 0x00EE).fetchWord, events := [] } = .next t ∧ t.halted) :=
  ⟨by decide, by decide, by decide, by decide, ⟨_, rfl, by decide⟩, ⟨_, rfl, by decide⟩⟩

theorem witness_FetchIsBigEndianAndChecked :
    ¬ { State.reset with pc := 0xFFF }.halted ∧ 0xFFE < { State.reset with pc := 0xFFF }.pc.toNat := by decide

theorem witness_HaltedBlockDoesNothing : { State.reset with faultCode := 1 }.halted := by decide

theorem witness_UnknownOpcodeWarnsAndStays :
    ¬ State.reset.halted ∧ State.reset.pc.toNat ≤ 0xFFE ∧
    decode State.reset.fetchWord = .unknown State.reset.fetchWord := by decide

/-- P1's halt: a jump to its own address (CF2). -/
theorem witness_JumpToSelfHolds : (given 0x1200).atHaltJump :=
  ⟨by decide, by decide, 0x200, by decide, by decide⟩

/-- A step that does not fault and writes no timer; it emits a Tone (KT17). -/
theorem witness_EveryStepTicksTheTimers_EventsOfAStepAreExact :
    ∃ t, step { given 0x6000 with st := 1 } = .next t ∧ ¬ { given 0x6000 with st := 1 }.halted ∧ ¬ t.halted ∧
      decode { given 0x6000 with st := 1 }.fetchWord = .instr (.ldKk 0 0) ∧ t.events = [.tone] :=
  ⟨_, rfl, by decide, by decide, by decide, by decide⟩

/-- A step that faults: the halting clauses of the events and of precision. -/
theorem witness_FaultsArePrecise :
    ∃ t, step (given 0x00EE) = .next t ∧ ¬ (given 0x00EE).halted ∧ t.halted :=
  ⟨_, rfl, by decide, by decide⟩

/-- SC8's step 3: Fx55 at 0x200 stores V0, V1 at 0x202. -/
theorem witness_StoredCodeIsFetchedNext :
    ∃ t, step { given 0xF155 with i := 0x202 } = .next t ∧ ¬ { given 0xF155 with i := 0x202 }.halted ∧
      { given 0xF155 with i := 0x202 }.pc.toNat ≤ 0xFFE ∧
      decode { given 0xF155 with i := 0x202 }.fetchWord = .instr (.storeRegs 1) ∧
      { given 0xF155 with i := 0x202 }.i.toNat + (1 : Reg).val ≤ 0xFFF ∧ (1 : Reg) ≤ 1 ∧
      (1 : Reg).val = (0 : Reg).val + 1 ∧
      { given 0xF155 with i := 0x202 }.i.toNat + (0 : Reg).val = { given 0xF155 with i := 0x202 }.pc.toNat + 2 :=
  ⟨_, rfl, by decide, by decide, by decide, by decide, by decide, by decide, by decide⟩

/-- Every row of the fault table has a state and an instruction; CLS meets none. -/
theorem witness_FaultsExactlyAsListed :
    FaultRow { State.reset with sp := 16 } (.call 0x300) 1 16 ∧ FaultRow State.reset .ret 2 0 ∧
    FaultRow { State.reset with i := 0xFFF } (.drw 0 0 2) 3 0xFFF ∧
    FaultRow { State.reset with i := 0xFFE } (.ldB 0) 3 0xFFE ∧
    FaultRow (State.reset.writeV 1 0x10) (.skp 1) 5 0x10 ∧ ∀ code info, ¬ FaultRow State.reset .cls code info := by
  refine ⟨.inl ⟨⟨_, rfl⟩, by decide⟩, .inr (.inl (by decide)), .inr (.inr (.inl (by decide))),
    .inr (.inr (.inl (by decide))), .inr (.inr (.inr ⟨1, by decide⟩)), fun code info h => ?_⟩
  simp [FaultRow, Instr.footprint, Instr.keyReg] at h

/-- Each clause of the step's fault table: a fetch just out of range, a condition met, and none met. -/
theorem witness_StepFaultsExactlyAsListed :
    0xFFE < { State.reset with pc := 0xFFF }.pc.toNat ∧ (∃ t, step { State.reset with pc := 0xFFF } = .next t) ∧
    (given 0x00EE).pc.toNat ≤ 0xFFE ∧ decode (given 0x00EE).fetchWord = .instr .ret ∧ FaultRow (given 0x00EE) .ret 2 0 ∧
    (∃ t, step (given 0x00EE) = .next t) ∧ (∃ t, step (given 0x0000) = .next t) ∧
    ∀ i code info, decode (given 0x0000).fetchWord = .instr i → ¬ FaultRow (given 0x0000) i code info := by
  refine ⟨by decide, ⟨_, rfl⟩, by decide, by decide, .inr (.inl (by decide)), ⟨_, rfl⟩, ⟨_, rfl⟩, fun i code info h => ?_⟩
  rw [show decode (given 0x0000).fetchWord = .unknown 0x0000 by decide] at h
  simp at h

/-- The longest image that is accepted and the shortest that is not. -/
theorem witness_LoadProgram_OnlyResetLeavesTheHalt :
    { State.reset with faultCode := 3 }.halted ∧ (List.replicate 3584 (0 : Byte)).length ≤ 3584 ∧
    3584 < (List.replicate 3585 (0 : Byte)).length ∧
    ¬ (HostOp.drawFlagClear = .reset ∨ ∃ bytes, HostOp.drawFlagClear = .loadProgram bytes ∧ bytes.length ≤ 3584) :=
  ⟨by decide, by rw [List.length_replicate], by rw [List.length_replicate]; decide, by simp⟩

/-- Each part is changed by some instruction. -/
theorem witness_WritersOfEveryPart :
    (∃ t, exec (.drw 0 0 1) State.reset = .next t ∧ t.drawFlag ≠ State.reset.drawFlag ∧
      t.pixelAt 0 ≠ State.reset.pixelAt 0) ∧
    (∃ t, exec (.call 0x300) State.reset = .next t ∧ t.sp ≠ State.reset.sp ∧ t.stackAt 0 ≠ State.reset.stackAt 0) ∧
    (∃ t, exec (.ldDtVx 1) (State.reset.writeV 1 5) = .next t ∧ t.dt ≠ State.reset.dt) ∧
    (∃ t, exec (.ldStVx 1) (State.reset.writeV 1 5) = .next t ∧ t.st ≠ State.reset.st) ∧
    (∃ t, exec (.ldI 1) State.reset = .next t ∧ t.i ≠ State.reset.i) ∧
    (∃ t, exec (.ldB 1) { State.reset with i := 0x10 } = .next t ∧ t.memRead 0x10 ≠ State.reset.memRead 0x10) :=
  ⟨⟨_, rfl, by decide, by decide⟩, ⟨_, rfl, by decide, by decide⟩, ⟨_, rfl, by decide⟩, ⟨_, rfl, by decide⟩,
    ⟨_, rfl, by decide⟩, ⟨_, rfl, by decide⟩⟩

theorem witness_OnlyRndReadsTheInput :
    (∀ x kk, decode (given 0x6A42).fetchWord ≠ .instr (.rnd x kk)) ∧
    (∃ t, step (supplyRnd 1 (given 0x6A42)) = .next t) ∧ ∃ u, step (supplyRnd 2 (given 0x6A42)) = .next u := by
  refine ⟨fun x kk => ?_, ⟨_, rfl⟩, ⟨_, rfl⟩⟩
  rw [show decode (given 0x6A42).fetchWord = .instr (.ldKk 10 0x42) by decide]
  simp

theorem witness_HostOnlyStateHasNoInfluence :
    SameToPrograms (given 0xD015) { given 0xD015 with drawFlag := true, opcode := 0xFFFF, faultPc := 7 } ∧
    (∃ t, step (given 0xD015) = .next t) ∧
    ∃ t, step { given 0xD015 with drawFlag := true, opcode := 0xFFFF, faultPc := 7 } = .next t :=
  ⟨⟨rfl, rfl, rfl, rfl, rfl, rfl, rfl, rfl, rfl, rfl, rfl, rfl, rfl⟩, ⟨_, rfl⟩, ⟨_, rfl⟩⟩

/-- Two memories in canonical form, one listing a cell at the top of memory. -/
theorem witness_CanonicalMemoryIsUnique :
    Memory.wf [(0x000, 0x11), (0xFFF, 0x22)] ∧ Memory.wf [] ∧ ¬ Memory.wf [(0x000, 0xF0)] ∧
    ¬ Memory.wf [(0x1000, 0x22)] := by decide

/-- A state other than reset that meets the invariant: halted by RET on the empty stack at 0x200. -/
theorem witness_StepKeepsTheInvariant :
    State.Inv { given 0x00EE with faultCode := 2, faultPc := 0x200, faultOpcode := 0x00EE } ∧
    ∃ t, step { given 0x00EE with faultCode := 2, faultPc := 0x200, faultOpcode := 0x00EE } = .next t :=
  ⟨⟨by decide, .inr (.inr ⟨by decide, by decide, by decide, .ret, by decide, .inr (.inl (by decide))⟩),
    ⟨.inl rfl, by decide, fun _ => rfl⟩⟩, ⟨_, rfl⟩⟩

/-- A host run: the state after reset meets the premise, and a load, a key write and a step run from it. -/
theorem witness_HostRunsKeepTheInvariant :
    State.reset.Inv ∧ (hostRun [.loadProgram [0x6A, 0x42], .keyWrite 3 true, .step 0] State.reset).1.readV 10 = 0x42 :=
  ⟨⟨by decide, .inl (by decide), ⟨.inl rfl, by decide, fun _ => rfl⟩⟩, by decide⟩

end Sys2Proof.Tests
end

/-! PROOFS. The family of the state (spec/10_state.md): what an answer ensures, who writes which part, what no
instruction reads, and the invariant. -/

namespace Sys2Proof.Machine

/-! ### What an answer ensures: one rule per shared operation -/

/-- The answer is a next state, and `Q` holds of it. -/
def Ensures (r : Result) (Q : State → Prop) : Prop := ∃ t, r = .next t ∧ Q t

section
variable {s t : State} {Q : State → Prop}

theorem Ensures.holds {r : Result} (h : Ensures r Q) (hr : r = .next t) : Q t := by
  obtain ⟨u, hu, hQ⟩ := h
  obtain rfl := Host.Outcome.next.inj (hr.symm.trans hu)
  exact hQ

@[simp] theorem ensures_next : Ensures (.next t) Q ↔ Q t :=
  ⟨fun h => h.holds rfl, fun h => ⟨t, rfl, h⟩⟩

@[simp] theorem ensures_raise {f : Fault} {w : Word} : Ensures (raise f w s) Q ↔ Q (s.takeFault f w) := ensures_next

@[simp] theorem ensures_skipIf {c : Bool} : Ensures (skipIf s c) Q ↔ Q (s.advance (if c then 4 else 2)) :=
  ensures_next

@[simp] theorem ensures_checkRange {len : Nat} {body : Result} :
    Ensures (checkRange s len body) Q ↔
      (1 ≤ len ∧ 0xFFF < s.i.toNat + len - 1 → Q (s.takeFault .memOutOfRange s.i)) ∧
      (¬ (1 ≤ len ∧ 0xFFF < s.i.toNat + len - 1) → Ensures body Q) := by
  obtain ⟨h1, h2, hc⟩ | ⟨h, hc⟩ := checkRange_cases s len body
  · rw [hc, ensures_raise]
    exact ⟨fun hQ => ⟨fun _ => hQ, fun h => absurd ⟨h1, h2⟩ h⟩, fun hQ => hQ.1 ⟨h1, h2⟩⟩
  · rw [hc]
    exact ⟨fun hQ => ⟨fun h' => absurd h' h, fun _ => hQ⟩, fun hQ => hQ.2 h⟩

@[simp] theorem ensures_withKey {x : Reg} {k : Reg → Result} :
    Ensures (withKey s x k) Q ↔
      (0xF < (s.readV x).toNat → Q (s.takeFault .keyOutOfRange (zextByte (s.readV x)))) ∧
      (∀ q : Reg, q.val = (s.readV x).toNat → Ensures (k q) Q) := by
  obtain ⟨h, hk⟩ | ⟨q, hq, hk⟩ := withKey_cases s x k
  · rw [hk, ensures_raise]
    exact ⟨fun hQ => ⟨fun _ => hQ, fun q hq => by omega⟩, fun hQ => hQ.1 h⟩
  · rw [hk]
    refine ⟨fun hQ => ⟨fun h => by omega, fun q' hq' => ?_⟩, fun hQ => hQ.2 q hq⟩
    rwa [Fin.ext (hq'.trans hq.symm)]

@[simp] theorem ensures_push {w : Word} {k : State → Result} :
    Ensures (push s w k) Q ↔
      (s.sp.val = 16 → Q (s.takeFault .stackOverflow s.spWord)) ∧
      (∀ h : s.sp.val < 16, Ensures (k (pushed s w h)) Q) := by
  obtain ⟨h, hp⟩ | ⟨h, hp⟩ := push_cases s w k
  · rw [hp, ensures_raise]
    exact ⟨fun hQ => ⟨fun _ => hQ, fun h' => by omega⟩, fun hQ => hQ.1 h⟩
  · rw [hp]
    exact ⟨fun hQ => ⟨fun h' => by omega, fun _ => hQ⟩, fun hQ => hQ.2 h⟩

@[simp] theorem ensures_pop {k : Word → State → Result} :
    Ensures (pop s k) Q ↔
      (s.sp.val = 0 → Q (s.takeFault .stackUnderflow s.spWord)) ∧
      (∀ j : Fin 16, s.sp.val = j.val + 1 → Ensures (k (s.stackAt j) (popped s)) Q) := by
  obtain ⟨h, hp⟩ | ⟨j, hj, hp⟩ := pop_cases s k
  · rw [hp, ensures_raise]
    exact ⟨fun hQ => ⟨fun _ => hQ, fun j hj => by omega⟩, fun hQ => hQ.1 h⟩
  · rw [hp]
    refine ⟨fun hQ => ⟨fun h => by omega, fun j' hj' => ?_⟩, fun hQ => hQ.2 j hj⟩
    rwa [Fin.ext (by omega : j'.val = j.val)]

@[simp] theorem ensures_execLdVxK {x : Reg} :
    Ensures (execLdVxK x s) Q ↔
      (chosenKey hardware.fx0aPriority s.pressedKeys = none → Q s) ∧
      (∀ k, chosenKey hardware.fx0aPriority s.pressedKeys = some k → Q ((s.writeV x (keyByte k)).advance 2)) := by
  unfold execLdVxK
  cases chosenKey hardware.fx0aPriority s.pressedKeys <;> simp

end

/-! ### What an instruction can do -/

/-- `t` is `s` after the entry of a fault of `i`'s row of the fault table (R138, R142). -/
def RowFaultEntered (i : Instr) (s t : State) : Prop :=
  ∃ f w, f ≠ Fault.fetchOutOfRange ∧ FaultRow s i f.code w ∧ t = s.takeFault f w

theorem rowFaultEntered_range {i : Instr} {s : State} (h : 1 ≤ i.footprint ∧ 0xFFF < s.i.toNat + i.footprint - 1) :
    RowFaultEntered i s (s.takeFault .memOutOfRange s.i) :=
  ⟨_, _, by decide, .inr (.inr (.inl ⟨h.1, h.2, rfl, rfl⟩)), rfl⟩

theorem rowFaultEntered_key {i : Instr} {s : State} {x : Reg} (hi : i.keyReg = some x)
    (h : 0xF < (s.readV x).toNat) : RowFaultEntered i s (s.takeFault .keyOutOfRange (zextByte (s.readV x))) :=
  ⟨_, _, by decide, .inr (.inr (.inr ⟨x, hi, h, rfl, by simp [zextByte]; omega⟩)), rfl⟩

/-- Every instruction answers a next state: after a fault of its own row, or with the system's own state kept. -/
theorem exec_rowFault_or_systemKept (i : Instr) (s : State) :
    Ensures (exec i s) fun t => RowFaultEntered i s t ∨ SystemKept s t := by
  cases i with
  | ret =>
    simp only [exec, execRet, ensures_pop, ensures_next]
    refine ⟨fun h => .inl ?_, fun j _ => .inr (by simp [SystemKept])⟩
    exact ⟨_, _, by decide, .inr (.inl ⟨rfl, h, rfl, by simp [State.spWord, h]⟩), rfl⟩
  | call nnn =>
    simp only [exec, execCall, ensures_push, ensures_next]
    refine ⟨fun h => .inl ?_, fun _ => .inr (by simp [SystemKept])⟩
    exact ⟨_, _, by decide, .inl ⟨⟨nnn, rfl⟩, h, rfl, by simp [State.spWord, h]⟩, rfl⟩
  | drw | ldB | storeRegs | loadRegs =>
    simp only [exec, execDrw, execLdB, execStoreRegs, execLoadRegs, ensures_checkRange, ensures_next]
    exact ⟨fun h => .inl (rowFaultEntered_range h), fun _ => .inr (by simp [SystemKept])⟩
  | skp | sknp =>
    simp only [exec, execSkp, execSknp, ensures_withKey, ensures_skipIf]
    exact ⟨fun h => .inl (rowFaultEntered_key rfl h), fun _ _ => .inr (by simp [SystemKept])⟩
  | ldVxK =>
    exact ensures_execLdVxK.mpr ⟨fun _ => .inr (by simp [SystemKept]), fun _ _ => .inr (by simp [SystemKept])⟩
  | _ => exact ensures_next.mpr (.inr (by simp [SystemKept]))

theorem exec_completes (i : Instr) (s : State) : ∃ t, exec i s = .next t := by
  obtain ⟨t, ht, -⟩ := exec_rowFault_or_systemKept i s
  exact ⟨t, ht⟩

/-- Which registers an instruction can change, and what it leaves in VF as a flag. -/
theorem exec_writesV (i : Instr) (s : State) :
    Ensures (exec i s) fun t => (∀ r, t.readV r ≠ s.readV r → i.writesV r) ∧
      (i.setsFlag = true → t.halted ∨ t.readV .vf = 0 ∨ t.readV .vf = 1) := by
  cases i with
  | drw =>
    simp only [exec, execDrw, ensures_checkRange, ensures_next]
    refine ⟨fun _ => ⟨by simp, fun _ => .inl (Fault.code_ne_zero .memOutOfRange)⟩, fun _ => ⟨?_, fun _ => .inr ?_⟩⟩
    · simp +contextual [Instr.writesV]
    · simp
  | addVy | subVy | shr | subnVy | shl | addI =>
    refine ensures_next.mpr ⟨fun r => ?_, fun _ => .inr (by simp)⟩
    by_cases hr : r = Reg.vf <;> simp +contextual [hr, Instr.writesV]
  | ret | call | skp | sknp => simp [exec, execRet, execCall, execSkp, execSknp, Instr.setsFlag]
  | ldB | storeRegs | loadRegs =>
    simp +contextual [exec, execLdB, execStoreRegs, execLoadRegs, Instr.writesV, Instr.setsFlag]
  | ldVxK => simp +contextual [exec, Instr.writesV, Instr.setsFlag]
  | _ => exact ensures_next.mpr (by simp +contextual [Instr.writesV, Instr.setsFlag])

/-- Which fields an instruction can change. -/
theorem exec_writesFields (i : Instr) (s : State) : Ensures (exec i s) fun t =>
    (t.drawFlag ≠ s.drawFlag → ∃ x y n, i = .drw x y n) ∧
    (t.sp ≠ s.sp → i = .ret ∨ ∃ nnn, i = .call nnn) ∧
    (t.stack ≠ s.stack → ∃ nnn, i = .call nnn) ∧
    (t.dt ≠ s.dt → ∃ x, i = .ldDtVx x) ∧
    (t.st ≠ s.st → ∃ x, i = .ldStVx x) ∧
    (t.i ≠ s.i → (∃ nnn, i = .ldI nnn) ∨ ∃ x, i = .addI x ∨ i = .ldF x ∨ i = .storeRegs x ∨ i = .loadRegs x) ∧
    (t.mem ≠ s.mem → ∃ x, i = .ldB x ∨ i = .storeRegs x) ∧
    (t.fb ≠ s.fb → i = .cls ∨ ∃ x y n, i = .drw x y n) := by
  cases i with
  | ret | call | skp | sknp => simp [exec, execRet, execCall, execSkp, execSknp]
  | drw | ldB | storeRegs | loadRegs => simp [exec, execDrw, execLdB, execStoreRegs, execLoadRegs]
  | ldVxK => simp [exec]
  | _ => exact ensures_next.mpr (by simp)

theorem execLdB_keeps_wf (x : Reg) {s : State} (hm : s.mem.wf) : Ensures (execLdB x s) fun t => t.mem.wf := by
  simp only [execLdB, ensures_checkRange, ensures_next]
  refine ⟨fun _ => hm, fun h => Memory.wf_writeBytes _ _ _ hm ?_⟩
  simp only [bcdDigits, List.length_cons, List.length_nil, memSize]
  omega

theorem execStoreRegs_keeps_wf (x : Reg) {s : State} (hm : s.mem.wf) :
    Ensures (execStoreRegs x s) fun t => t.mem.wf := by
  simp only [execStoreRegs, ensures_checkRange, ensures_next]
  refine ⟨fun _ => hm, fun h => Memory.wf_writeBytes _ _ _ hm ?_⟩
  rw [State.length_firstRegs]
  unfold regCount at h
  unfold memSize
  omega

/-- Every instruction keeps memory canonical: the two that write it stay inside their checked footprint (R55). -/
theorem exec_keeps_wf {i : Instr} {s t : State} (h : exec i s = .next t) (hm : s.mem.wf) : t.mem.wf := by
  by_cases hmem : t.mem = s.mem
  · rwa [hmem]
  · obtain ⟨-, -, -, -, -, -, hw, -⟩ := (exec_writesFields i s).holds h
    obtain ⟨x, rfl | rfl⟩ := hw hmem
    · exact (execLdB_keeps_wf x hm).holds h
    · exact (execStoreRegs_keeps_wf x hm).holds h

theorem exec_rndIn {i : Instr} {s t : State} (h : exec i s = .next t) : t.rndIn = s.rndIn := by
  obtain ⟨f, w, -, rfl⟩ | ⟨-, -, -, -, -, -, -, hin, -⟩ := exec_cases h
  · simp
  · exact hin

/-! ### The four kinds of a step as equations (R81) -/

section
variable {s : State}

theorem step_eq_idle (hh : s.halted) : step s = .next s.idle := by
  rw [step, stepWith, if_pos hh]

theorem step_eq_fetchFault (hh : ¬ s.halted) (hpc : 0xFFE < s.pc.toNat) :
    step s = .next (s.abandon (s.takeFault .fetchOutOfRange s.pc)) := by
  rw [step, stepWith, if_neg hh, if_pos (by simpa [State.fetchFaults])]

theorem step_eq_closeStep (hh : ¬ s.halted) (hpc : s.pc.toNat ≤ 0xFFE) :
    step s = closeStep s (runDecoded exec s.fetchWord (s.latched s.fetchWord)) := by
  rw [step, stepWith, if_neg hh, if_neg (by simpa [State.fetchFaults])]

theorem step_eq_warn (hh : ¬ s.halted) (hpc : s.pc.toNat ≤ 0xFFE)
    (hd : decode s.fetchWord = .unknown s.fetchWord) :
    step s = .next ((s.latched s.fetchWord).emit (.decodeWarning s.fetchWord)).tick.takeInput := by
  rw [step_eq_closeStep hh hpc, runDecoded, hd]
  exact if_neg hh

theorem step_eq_exec {i : Instr} {u : State} (hh : ¬ s.halted) (hpc : s.pc.toNat ≤ 0xFFE)
    (hd : decode s.fetchWord = .instr i) (hx : exec i (s.latched s.fetchWord) = .next u) :
    step s = .next (if u.halted then s.abandon u else u.tick.takeInput) := by
  rw [step_eq_closeStep hh hpc, runDecoded, hd]
  simp only [hx, closeStep, apply_ite Host.Outcome.next]

theorem step_completes (s : State) : ∃ t, step s = .next t := by
  by_cases hh : s.halted
  · exact ⟨_, step_eq_idle hh⟩
  by_cases hpc : 0xFFE < s.pc.toNat
  · exact ⟨_, step_eq_fetchFault hh hpc⟩
  replace hpc := Nat.le_of_not_lt hpc
  cases hd : decode s.fetchWord with
  | instr i =>
    obtain ⟨u, hx⟩ := exec_completes i (s.latched s.fetchWord)
    exact ⟨_, step_eq_exec hh hpc hd hx⟩
  | unknown op => exact ⟨_, step_eq_warn hh hpc (decode_eq_unknown hd ▸ hd)⟩
  | truncated => exact absurd hd (decode_ne_truncated _)

/-- A step takes one `rnd` input from the supply (R42). -/
theorem step_rndIn {t : State} (h : step s = .next t) : t.rndIn = s.rndIn.tail := by
  obtain ⟨-, rfl⟩ | ⟨-, -, rfl⟩ | ⟨-, -, -, rfl⟩ | ⟨-, -, i, u, -, hx, rfl⟩ := step_cases h
  · simp
  · simp
  · simp
  · split
    · simp
    · simp [exec_rndIn hx]

theorem State.takeInput_tick (s : State) : s.tick.takeInput = s.takeInput.tick := by
  have hst : s.takeInput.st = s.st := rfl
  unfold State.tick State.soundTone
  rw [hst]
  split <;> rfl

end

/-! ### The writers of each part -/

/-- Settles O17: the registers and the flag of each instruction are those of `exec_writesV`. -/
theorem writersOfRegisters : Obligations.WritersOfRegisters := by
  intro i s t h
  obtain ⟨hv, hflag⟩ := (exec_writesV i s).holds h
  refine ⟨hv, fun hi hcode hs => (hflag hi).resolve_left fun ht => hs ?_⟩
  rwa [State.halted, ← hcode]

/-- Settles O46: a part changes only with its field, and the fields of each instruction are those of
`exec_writesFields`; the system's own fields are kept by a fault and by an instruction that completes. -/
theorem writersOfEveryPart : Obligations.WritersOfEveryPart := by
  intro i s t h
  obtain ⟨hdraw, hsp, hstack, hdt, hst, hi, hmem, hfb⟩ := (exec_writesFields i s).holds h
  refine ⟨hdraw, hsp, fun ⟨j, hj⟩ => hstack ?_, hdt, hst, hi, fun ⟨a, ha⟩ => hmem ?_, fun ⟨n, hn⟩ => hfb ?_, ?_⟩
  · exact fun e => hj (by simp [State.stackAt, e])
  · exact fun e => ha (by simp [State.memRead, e])
  · exact fun e => hn (by simp [State.pixelAt, e])
  · obtain ⟨f, w, -, rfl⟩ | ⟨-, -, -, -, hkept⟩ := exec_cases h
    · simp
    · exact hkept

/-! ### What no instruction reads -/

/-- The parts of the state whose influence on an instruction is in question. -/
inductive Unread where
  /-- draw_flag, the latch and the contents of FAULT_PC, FAULT_OPCODE, FAULT_INFO (R34, R36, R38) -/
  | hostOnly
  /-- the supply of `rnd` bytes (R42) -/
  | supply

/-- `s` with those parts blanked. -/
def State.blank : Unread → State → State
  | .hostOnly, s => { s with drawFlag := false, opcode := 0, faultPc := 0, faultOpcode := 0, faultInfo := 0 }
  | .supply, s => { s with rndIn := [] }

/-- `r` with those parts of its next state blanked. -/
def blankNext (p : Unread) : Result → Result
  | .next t => .next (t.blank p)
  | .fault f => .fault f
  | .refused f => .refused f

/-- An instruction answers from the blanked state what it answers from the state itself, up to the blanked parts; only
Cxkk reads the supply. -/
theorem exec_blank (p : Unread) (i : Instr) (s : State) (hi : p = .supply → ∀ x kk, i ≠ .rnd x kk) :
    blankNext p (exec i s) = blankNext p (exec i (s.blank p)) := by
  cases i with
  | rnd x kk =>
    cases p with
    | hostOnly => rfl
    | supply => exact absurd rfl (hi rfl x kk)
  | ret | drw | ldB | storeRegs | loadRegs =>
    simp only [exec, execRet, execDrw, execLdB, execStoreRegs, execLoadRegs, pop, checkRange, apply_ite (blankNext p)]
    cases p <;> rfl
  | call | skp | sknp =>
    simp only [exec, execCall, execSkp, execSknp, push, withKey, apply_dite (blankNext p)]
    cases p <;> rfl
  | ldVxK =>
    have hkeys : (s.blank p).pressedKeys = s.pressedKeys := by cases p <;> rfl
    simp only [exec, execLdVxK, hkeys]
    cases chosenKey _ _ <;> cases p <;> rfl
  | _ => cases p <;> rfl

section
variable {s s' u u' : State}

theorem exec_congr {p : Unread} {i : Instr} (hi : p = .supply → ∀ x kk, i ≠ .rnd x kk)
    (hs : s'.blank p = s.blank p) (h : exec i s = .next u) (h' : exec i s' = .next u') : u'.blank p = u.blank p := by
  have hb := exec_blank p i s hi
  rw [← hs, ← exec_blank p i s' hi, h, h'] at hb
  exact (Host.Outcome.next.inj hb).symm

/-! ### Two states that are alike to programs, through every part of a step -/

/-- They hold the same event list too, so they differ in the blanked parts only. -/
def AlikeWithEvents (s s' : State) : Prop := SameToPrograms s s' ∧ s'.events = s.events

theorem alikeWithEvents_iff : AlikeWithEvents s s' ↔ s'.blank .hostOnly = s.blank .hostOnly := by
  simp only [AlikeWithEvents, SameToPrograms, State.blank, State.mk.injEq, true_and]
  tauto

theorem SameToPrograms.halted_iff (h : SameToPrograms s s') : s'.halted ↔ s.halted := by
  obtain ⟨-, -, -, -, -, -, -, -, -, -, hcode, -⟩ := h
  rw [State.halted, hcode]

theorem SameToPrograms.fetch (h : SameToPrograms s s') : s'.pc = s.pc ∧ s'.fetchWord = s.fetchWord := by
  obtain ⟨-, -, hpc, -, -, -, -, hmem, -⟩ := h
  exact ⟨hpc, fetchWord_congr hpc fun a => congrArg (Memory.read · a) hmem⟩

theorem SameToPrograms.latched (h : SameToPrograms s s') (op : Word) :
    AlikeWithEvents (s.latched op) (s'.latched op) := by
  simpa [AlikeWithEvents, SameToPrograms] using h

theorem SameToPrograms.idle (h : SameToPrograms s s') : AlikeWithEvents s.idle s'.idle := by
  simp_all [AlikeWithEvents, SameToPrograms]

theorem SameToPrograms.takeFault (h : SameToPrograms s s') (f : Fault) (w w' : Word) :
    SameToPrograms (s.takeFault f w) (s'.takeFault f w') := by
  simp_all [SameToPrograms]

theorem SameToPrograms.abandon (h : SameToPrograms s s') (hu : SameToPrograms u u') :
    AlikeWithEvents (s.abandon u) (s'.abandon u') := by
  simp_all [AlikeWithEvents, SameToPrograms]

theorem AlikeWithEvents.emit (h : AlikeWithEvents s s') (e : Event) : AlikeWithEvents (s.emit e) (s'.emit e) := by
  simp_all [AlikeWithEvents, SameToPrograms]

theorem AlikeWithEvents.tick (h : AlikeWithEvents s s') : AlikeWithEvents s.tick.takeInput s'.tick.takeInput := by
  simp_all [AlikeWithEvents, SameToPrograms]

theorem AlikeWithEvents.exec {i : Instr} (h : AlikeWithEvents s s') (hx : exec i s = .next u)
    (hx' : exec i s' = .next u') : AlikeWithEvents u u' :=
  alikeWithEvents_iff.mpr (exec_congr (by simp) (alikeWithEvents_iff.mp h) hx hx')

/-- Two states alike but for the supply are one state with another supply. -/
theorem exists_rndIn_of_blank (h : s'.blank .supply = s.blank .supply) : ∃ r, s' = { s with rndIn := r } := by
  refine ⟨s'.rndIn, ?_⟩
  cases s
  cases s'
  simpa [State.blank] using h

end

/-- Settles O48: the two steps are of one kind, and each kind leaves the two states alike. -/
theorem hostOnlyStateHasNoInfluence : Obligations.HostOnlyStateHasNoInfluence := by
  intro s s' t t' hs h h'
  obtain ⟨hpc', hop⟩ := hs.fetch
  obtain ⟨hh, rfl⟩ | ⟨hh, hpc, rfl⟩ | ⟨hh, hpc, hd, rfl⟩ | ⟨hh, hpc, i, u, hd, hx, rfl⟩ := step_cases h
  all_goals rw [← hs.halted_iff] at hh
  · obtain rfl := Host.Outcome.next.inj ((step_eq_idle hh).symm.trans h')
    exact hs.idle
  all_goals rw [← hpc'] at hpc
  · obtain rfl := Host.Outcome.next.inj ((step_eq_fetchFault hh hpc).symm.trans h')
    exact hs.abandon (hs.takeFault ..)
  all_goals rw [← hop] at hd
  · obtain rfl := Host.Outcome.next.inj ((step_eq_warn hh hpc hd).symm.trans h')
    rw [hop]
    exact ((hs.latched _).emit _).tick
  · obtain ⟨u', hx'⟩ := exec_completes i (s'.latched s'.fetchWord)
    obtain rfl := Host.Outcome.next.inj ((step_eq_exec hh hpc hd hx').symm.trans h')
    rw [hop] at hx'
    have hu := (hs.latched s.fetchWord).exec hx hx'
    by_cases hc : u.halted
    · rw [if_pos hc, if_pos (hu.1.halted_iff.mpr hc)]
      exact hs.abandon hu.1
    · rw [if_neg hc, if_neg (hu.1.halted_iff.not.mpr hc)]
      exact hu.tick

/-- Settles O47: the two steps are of one kind, and once each has taken its input the same supply is left. -/
theorem onlyRndReadsTheInput : Obligations.OnlyRndReadsTheInput := by
  intro a b s t t' hrnd h h'
  obtain ⟨hh, rfl⟩ | ⟨hh, hpc, rfl⟩ | ⟨hh, hpc, hd, rfl⟩ | ⟨hh, hpc, i, u, hd, hx, rfl⟩ := step_cases h
  · exact Host.Outcome.next.inj ((step_eq_idle (s := supplyRnd b s) hh).symm.trans h')
  · exact Host.Outcome.next.inj ((step_eq_fetchFault (s := supplyRnd b s) hh hpc).symm.trans h')
  · obtain rfl := Host.Outcome.next.inj ((step_eq_warn (s := supplyRnd b s) hh hpc hd).symm.trans h')
    rw [State.takeInput_tick, State.takeInput_tick]
    rfl
  · obtain ⟨u', hx'⟩ := exec_completes i ((supplyRnd b s).latched s.fetchWord)
    obtain rfl := Host.Outcome.next.inj ((step_eq_exec (s := supplyRnd b s) hh hpc hd hx').symm.trans h')
    have hs : ((supplyRnd b s).latched s.fetchWord).blank .supply =
      ((supplyRnd a s).latched s.fetchWord).blank .supply := rfl
    obtain ⟨r, rfl⟩ := exists_rndIn_of_blank (exec_congr (fun _ x kk hi => hrnd x kk (hi ▸ hd)) hs hx hx')
    have hr : r = b :: s.rndIn := exec_rndIn hx'
    have hin : u.rndIn = a :: s.rndIn := exec_rndIn hx
    by_cases hc : u.halted
    · exact (if_pos hc).trans (if_pos hc).symm
    · have hc' : ¬ State.halted { u with rndIn := r } := hc
      rw [if_neg hc, if_neg hc', State.takeInput_tick, State.takeInput_tick]
      simp [State.takeInput, hin, hr]

/-! ### The host operations -/

theorem fbRead_getElem? (s : State) {idx : Nat} (h : idx < 2048) : (fbRead s)[idx]? = some (s.pixelAt idx) := by
  simp [fbRead, h]

theorem frame_keyWrite (k : Reg) (b : Bool) (s : State) : Frame (fun p => p = .key k) s (keyWrite k b s) := by
  intro p hp
  cases p with
  | key q => exact (keyDown_keyWrite s k q b).trans (if_neg fun e => hp (congrArg Part.key e))
  | _ => simp [Part.same]

theorem frame_drawFlagClear (s : State) : Frame (fun p => p = .drawFlag) s (drawFlagClear s) := by
  intro p hp
  cases p with
  | drawFlag => exact absurd rfl hp
  | _ => simp [Part.same]

/-- Settles O51: the two writes have their frames, the reads answer what they name, and a step completes. -/
theorem hostOperationsTouchOnlyTheirPart : Obligations.HostOperationsTouchOnlyTheirPart := by
  intro k b rnd s
  refine ⟨⟨_, rfl, ?_, rfl, frame_keyWrite k b s⟩, ⟨_, rfl, rfl, rfl, frame_drawFlagClear s⟩,
    ⟨_, rfl, by simp [fbRead], fun _ => fbRead_getElem? s⟩, rfl, rfl, ?_⟩
  · rw [keyDown_keyWrite, if_pos rfl]
  · obtain ⟨t, ht⟩ := step_completes (supplyRnd rnd s)
    refine ⟨t, ht, ?_, step_rndIn ht⟩
    simp only [hostOp, hostStep, ht]

/-! ### The invariant -/

/-- A row of the fault table never records code 0 (R138). -/
theorem FaultRow.code_ne_zero {s : State} {i : Instr} {code : BitVec 3} {info : Word} (h : FaultRow s i code info) :
    code ≠ 0 := by
  obtain ⟨-, -, rfl, -⟩ | ⟨-, -, rfl, -⟩ | ⟨-, -, rfl, -⟩ | ⟨-, -, -, rfl, -⟩ := h <;> decide

/-- A true record in a block that is not halted is the empty one (R38). -/
theorem State.FaultRecord.eq_zero {s : State} (h : s.FaultRecord) (hh : ¬ s.halted) :
    s.faultCode = 0 ∧ s.faultPc = 0 ∧ s.faultOpcode = 0 ∧ s.faultInfo = 0 := by
  obtain h0 | ⟨hcode, -⟩ | ⟨-, -, -, i, -, hrow⟩ := h
  · exact h0
  · exact absurd (by simp [hcode]) hh
  · exact absurd hrow.code_ne_zero hh

theorem eventsOfStep_of_nil {s : State} (h : s.events = []) : s.EventsOfStep :=
  ⟨.inl h, by simp [h], fun _ => h⟩

/-- The tick adds at most a Tone, with which ST comes to 0 (R87). -/
theorem eventsOfStep_tick {s : State} (hh : ¬ s.halted)
    (h : s.events = [] ∨ (decode s.opcode = .unknown s.opcode ∧ s.events = [.decodeWarning s.opcode])) :
    s.tick.takeInput.EventsOfStep := by
  have hh' : ¬ s.tick.takeInput.halted := by simpa using hh
  have hop : s.tick.takeInput.opcode = s.opcode := by simp
  have hev : s.tick.takeInput.events = if s.st = 1 then s.events ++ [.tone] else s.events := by simp
  by_cases hst : s.st = 1
  · rw [if_pos hst] at hev
    refine ⟨?_, fun _ => by simp [hst, countDown], fun h => absurd h hh'⟩
    rw [hev, hop]
    obtain h | ⟨hd, h⟩ := h
    · exact .inr (.inl (by rw [h]; rfl))
    · exact .inr (.inr ⟨hd, .inr (by rw [h]; rfl)⟩)
  · rw [if_neg hst] at hev
    obtain h | ⟨hd, h⟩ := h
    · exact eventsOfStep_of_nil (hev.trans h)
    · refine ⟨?_, fun htone => ?_, fun h => absurd h hh'⟩
      · rw [hev, hop]
        exact .inr (.inr ⟨hd, .inl h⟩)
      · rw [hev, h] at htone
        simp at htone

/-- Settles O53: nothing is listed, recorded or emitted at reset. -/
theorem resetMeetsTheInvariant : Obligations.ResetMeetsTheInvariant :=
  ⟨Memory.wf_reset, .inl ⟨rfl, rfl, rfl, rfl⟩, eventsOfStep_of_nil rfl⟩

/-- Settles O54: a fault is recorded in the state that raised it, every other step of a block that is not halted keeps
the empty record, and the tick adds its Tone to what the instruction or the warning emitted. -/
theorem stepKeepsTheInvariant : Obligations.StepKeepsTheInvariant := by
  intro s t ⟨hmem, hrec, _⟩ h
  obtain ⟨hh, rfl⟩ | ⟨hh, hpc, rfl⟩ | ⟨hh, hpc, hd, rfl⟩ | ⟨hh, hpc, i, u, hd, hx, rfl⟩ := step_cases h
  · exact ⟨hmem, hrec, eventsOfStep_of_nil rfl⟩
  · exact ⟨hmem, .inr (.inl ⟨rfl, rfl, rfl, rfl, hpc⟩), eventsOfStep_of_nil rfl⟩
  · refine ⟨by simpa using hmem, .inl (by simpa using hrec.eq_zero hh), eventsOfStep_tick hh (.inr ⟨hd, ?_⟩)⟩
    simp
  · obtain ⟨f, w, hf, hrow, rfl⟩ | hkept := (exec_rowFault_or_systemKept i _).holds hx
    · have hu : ((s.latched s.fetchWord).takeFault f w).halted := Fault.code_ne_zero f
      rw [if_pos hu]
      exact ⟨hmem, .inr (.inr ⟨hpc, rfl, State.opcodeFor_of_ne _ f hf, i, hd, hrow⟩), eventsOfStep_of_nil rfl⟩
    · obtain ⟨hcode, hfpc, hfop, hinfo, -, -, hev, -, -⟩ := hkept
      have hu : ¬ u.halted := by rwa [State.halted, hcode]
      have hwf : u.mem.wf := exec_keeps_wf hx hmem
      rw [if_neg hu]
      refine ⟨by simpa using hwf, .inl ?_, eventsOfStep_tick hu (.inl hev)⟩
      simpa [hcode, hfpc, hfop, hinfo] using hrec.eq_zero hh

theorem hostLoad_keeps_inv (bytes : List Byte) {s : State} (h : s.Inv) : (hostLoad bytes s).1.Inv := by
  simp only [hostLoad, loadProgram]
  by_cases hlen : maxProgLen < bytes.length
  · rwa [if_pos hlen]
  · rw [if_neg hlen]
    refine ⟨Memory.wf_writeBytes bytes _ _ Memory.wf_reset ?_, .inl ⟨rfl, rfl, rfl, rfl⟩, eventsOfStep_of_nil rfl⟩
    unfold maxProgLen at hlen
    unfold progBase memSize
    omega

theorem hostStep_keeps_inv (rnd : Byte) {s : State} (h : s.Inv) : (hostStep rnd s).1.Inv := by
  obtain ⟨t, ht⟩ := step_completes (supplyRnd rnd s)
  simp only [hostStep, ht]
  exact stepKeepsTheInvariant (supplyRnd rnd s) t h ht

/-- The invariant speaks of no key, of no draw_flag and of no supply, so the host's other writes keep it. -/
theorem hostOp_keeps_inv (op : HostOp) {s : State} (h : s.Inv) : (hostOp op s).1.Inv := by
  cases op with
  | reset => exact resetMeetsTheInvariant
  | loadProgram bytes => exact hostLoad_keeps_inv bytes h
  | step rnd => exact hostStep_keeps_inv rnd h
  | keyWrite | fbRead | drawFlagRead | drawFlagClear | statusRead => exact h

/-- Settles O55, by induction on the sequence. -/
theorem hostRunsKeepTheInvariant : Obligations.HostRunsKeepTheInvariant := by
  intro ops
  induction ops with
  | nil => exact fun _ h => h
  | cons op ops ih => exact fun s h => ih _ (hostOp_keeps_inv op h)

end Sys2Proof.Machine

/-! PROOFS. The family of memory (spec/20_memory.md): a canonical memory is its reads, the fetch, and code that Fx55
stores. -/

namespace Sys2Proof.Machine

/-! ### A canonical memory is its reads (R48) -/

/-- Where the addresses rise, a listed cell is what its address reads as. -/
theorem Memory.read_of_mem {m : Memory} (hm : m.Pairwise fun c d => c.1 < d.1) {c : Host.Cell} (hc : c ∈ m) :
    m.read c.1 = c.2 := by
  induction m with
  | nil => cases hc
  | cons d m ih =>
    obtain ⟨hd, hm⟩ := List.pairwise_cons.mp hm
    rw [Memory.read_cons]
    obtain rfl | hc := List.mem_cons.mp hc
    · exact if_pos rfl
    · rw [if_neg (hd c hc).ne, ih hm hc]

/-- An address that does not read as unlisted is listed, with the byte it reads as. -/
theorem Memory.mem_of_read_ne {m : Memory} {a : Nat} (h : m.read a ≠ unlistedByte a) : (a, m.read a) ∈ m := by
  induction m with
  | nil => exact absurd rfl h
  | cons c m ih =>
    rw [Memory.read_cons] at h ⊢
    split at h
    · rename_i hc
      rw [if_pos hc, ← hc]
      exact List.mem_cons_self
    · rename_i hc
      rw [if_neg hc]
      exact List.mem_cons_of_mem c (ih h)

/-- The cells of a canonical memory are cells of any memory that reads alike. -/
theorem Memory.subset_of_read_eq {m m' : Memory} (hm : m.wf) (h : ∀ a, a < memSize → m.read a = m'.read a) :
    m ⊆ m' := by
  intro c hc
  obtain ⟨hlt, hne⟩ := hm.2 c hc
  have hread : m'.read c.1 = c.2 := (h c.1 hlt).symm.trans (Memory.read_of_mem hm.1 hc)
  rw [← hread] at hne
  simpa [hread] using Memory.mem_of_read_ne hne

/-- Two lists of cells with rising addresses and the same cells are one list. -/
theorem Memory.eq_of_subset {m m' : Memory} (hm : m.Pairwise fun c d => c.1 < d.1)
    (hm' : m'.Pairwise fun c d => c.1 < d.1) (hsub : m ⊆ m') (hsub' : m' ⊆ m) : m = m' := by
  have hne : ∀ {c d : Host.Cell}, c.1 < d.1 → c ≠ d := fun h e => h.ne (congrArg Prod.fst e)
  have hperm : m.Perm m' :=
    (List.perm_ext_iff_of_nodup (hm.imp hne) (hm'.imp hne)).mpr fun _ => ⟨@hsub _, @hsub' _⟩
  exact hperm.eq_of_pairwise (fun _ _ _ _ h h' => absurd h' h.asymm) hm hm'

/-- Settles O52: each memory lists the cells of the other, and rising addresses fix their order. -/
theorem canonicalMemoryIsUnique : Obligations.CanonicalMemoryIsUnique := fun _ _ hm hm' h =>
  Memory.eq_of_subset hm.1 hm'.1 (Memory.subset_of_read_eq hm h)
    (Memory.subset_of_read_eq hm' fun a ha => (h a ha).symm)

/-! ### The fetch (R51, R82) -/

/-- The fetched opcode as a number: the byte at pc is its high byte (R51). -/
theorem State.toNat_fetchWord (s : State) :
    s.fetchWord.toNat = (s.memRead s.pc.toNat).toNat * 256 + (s.memRead (s.pc.toNat + 1)).toNat :=
  toNat_opcodeOfBytes ..

/-- A step that faults writes the fault registers alone, beside its output and input (R142). -/
theorem frame_abandon (s t : State) :
    Frame (fun p => p = .faultRegs ∨ p = .events ∨ p = .input) s (s.abandon t) := by
  intro p hp
  cases p with
  | faultRegs | events | input => simp at hp
  | _ => simp [Part.same]

/-- Settles O33: the opcode is its two bytes, and a fetch out of range is the abandoned step of its fault. -/
theorem fetchIsBigEndianAndChecked : Obligations.FetchIsBigEndianAndChecked := fun s =>
  ⟨s.toNat_fetchWord, fun hh hpc =>
    ⟨_, step_eq_fetchFault hh hpc, rfl, rfl, rfl, rfl, rfl, rfl, frame_abandon s _⟩⟩

/-! ### Code that Fx55 stores (R61, R122, R166) -/

/-- Of V0..Vx stored from `a` on, Vr is read at `a + r` (R52, R122). -/
theorem State.memRead_memWrite_firstRegs (s : State) (a : Nat) {x r : Reg} (hr : r ≤ x) :
    (s.memWrite a (s.firstRegs x)).memRead (a + r.val) = s.readV r := by
  have hlen : r.val < (s.firstRegs x).length := by
    rw [State.length_firstRegs]
    exact Nat.lt_succ_of_le hr
  rw [State.memRead_memWrite, dif_pos ⟨Nat.le_add_right .., Nat.add_lt_add_left hlen a⟩]
  simp only [Nat.add_sub_cancel_left, State.getElem_firstRegs]

/-- Fx55 inside memory stores the registers and goes on (R122). -/
theorem execStoreRegs_eq_next {x : Reg} {s : State} (h : s.i.toNat + x.val ≤ 0xFFF) :
    execStoreRegs x s = .next ((s.memWrite s.i.toNat (s.firstRegs x)).pastRegs x) := by
  obtain ⟨-, hout, -⟩ | ⟨-, hc⟩ := checkRange_cases s (regCount x)
    (.next ((s.memWrite s.i.toNat (s.firstRegs x)).pastRegs x))
  · unfold regCount at hout
    omega
  · exact hc

/-- A step of Fx55 inside memory goes to the next opcode, and each stored register is read where Fx55 put it. -/
theorem step_storeRegs {x : Reg} {s t : State} (hh : ¬ s.halted) (hpc : s.pc.toNat ≤ 0xFFE)
    (hd : decode s.fetchWord = .instr (.storeRegs x)) (hi : s.i.toNat + x.val ≤ 0xFFF) (h : step s = .next t) :
    t.pc = s.pc + 2 ∧ ∀ r ≤ x, t.memRead (s.i.toNat + r.val) = s.readV r := by
  have hx := execStoreRegs_eq_next (s := s.latched s.fetchWord) hi
  obtain rfl := Host.Outcome.next.inj ((step_eq_exec hh hpc hd hx).symm.trans h)
  rw [if_neg (by simpa using hh)]
  refine ⟨by simp, fun r hr => ?_⟩
  simpa using (s.latched s.fetchWord).memRead_memWrite_firstRegs s.i.toNat hr

/-- Settles O41: the next opcode's two addresses are those of Va and Vb among the stored registers. -/
theorem storedCodeIsFetchedNext : Obligations.StoredCodeIsFetchedNext := by
  intro x a b s t hh hpc hd hi hbx hba haddr h
  obtain ⟨htpc, hstored⟩ := step_storeRegs hh hpc hd hi h
  have hfirst : t.pc.toNat = s.i.toNat + a.val := by
    rw [htpc, haddr, BitVec.toNat_add]
    exact Nat.mod_eq_of_lt (by simp; omega)
  have hsecond : t.pc.toNat + 1 = s.i.toNat + b.val := by omega
  have hax : a ≤ x := le_trans (Fin.le_def.mpr (by omega)) hbx
  refine ⟨htpc, ?_⟩
  rw [State.toNat_fetchWord, hsecond, hfirst, hstored a hax, hstored b hbx]

end Sys2Proof.Machine

/-! PROOFS. The family of the encoding (spec/30_encoding.md): a word under a row's mask decodes to the row's
instruction, and a decoded instruction is encoded as its word on the examined bits. The round trip, the opcode map and
the layouts follow from these two. -/

namespace Sys2Proof

open Sys2Proof.Machine Sys2Proof.Laws

/-! ### From a row of the opcode map to the decoder (R75) -/

/-- The instruction that row `k` of R75 gives a word, with the word's fields; rows are numbered 1 to 34. -/
def rowInstr : Nat → Word → Instr
  | 1, _ => .cls
  | 2, _ => .ret
  | 3, op => .jp (fieldNnn op)
  | 4, op => .call (fieldNnn op)
  | 5, op => .seKk (fieldX op) (fieldKk op)
  | 6, op => .sneKk (fieldX op) (fieldKk op)
  | 7, op => .seVy (fieldX op) (fieldY op)
  | 8, op => .ldKk (fieldX op) (fieldKk op)
  | 9, op => .addKk (fieldX op) (fieldKk op)
  | 10, op => .ldVy (fieldX op) (fieldY op)
  | 11, op => .orVy (fieldX op) (fieldY op)
  | 12, op => .andVy (fieldX op) (fieldY op)
  | 13, op => .xorVy (fieldX op) (fieldY op)
  | 14, op => .addVy (fieldX op) (fieldY op)
  | 15, op => .subVy (fieldX op) (fieldY op)
  | 16, op => .shr (fieldX op) (fieldY op)
  | 17, op => .subnVy (fieldX op) (fieldY op)
  | 18, op => .shl (fieldX op) (fieldY op)
  | 19, op => .sneVy (fieldX op) (fieldY op)
  | 20, op => .ldI (fieldNnn op)
  | 21, op => .jpV0 (fieldNnn op)
  | 22, op => .rnd (fieldX op) (fieldKk op)
  | 23, op => .drw (fieldX op) (fieldY op) (fieldN op).toNat
  | 24, op => .skp (fieldX op)
  | 25, op => .sknp (fieldX op)
  | 26, op => .ldVxDt (fieldX op)
  | 27, op => .ldVxK (fieldX op)
  | 28, op => .ldDtVx (fieldX op)
  | 29, op => .ldStVx (fieldX op)
  | 30, op => .addI (fieldX op)
  | 31, op => .ldF (fieldX op)
  | 32, op => .ldB (fieldX op)
  | 33, op => .storeRegs (fieldX op)
  | _, op => .loadRegs (fieldX op)

theorem rowNumber_rowInstr (op : Word) : ∀ r ∈ opcodeMap, (rowInstr r.number op).rowNumber = r.number := by
  rw [← List.forall_iff_forall_mem]
  and_intros <;> rfl

/-- A row of one class alone (R69, R74): the class selects it. -/
theorem matchDecodes_class {p : Word} {i : Word → Instr}
    (h : ∀ op, classOf op = classOf p → decode op = .instr (i op)) : MatchDecodes 0xF000 p i :=
  fun op hop => h op (classOf_of_and hop rfl)

/-- A row of class 8 (R71): the class and the low nibble select it. -/
theorem matchDecodes_nibble {p : Word} {i : Word → Instr}
    (h : ∀ op, classOf op = classOf p → fieldN op = fieldN p → decode op = .instr (i op)) :
    MatchDecodes 0xF00F p i :=
  fun op hop => h op (classOf_of_and hop rfl) (fieldN_of_and hop rfl)

/-- A row of class 0, E or F (R70, R72, R73): the class and the low byte select it. -/
theorem matchDecodes_byte {p : Word} {i : Word → Instr}
    (h : ∀ op, classOf op = classOf p → fieldKk op = fieldKk p → decode op = .instr (i op)) :
    MatchDecodes 0xF0FF p i :=
  fun op hop => h op (classOf_of_and hop rfl) (fieldKk_of_and hop rfl)

/-- The list below names, row by row, the fields that select it; with those fields the decoder computes. -/
theorem matchDecodes_of_mem : ∀ r ∈ opcodeMap, MatchDecodes r.mask r.pattern (rowInstr r.number) := by
  rw [← List.forall_iff_forall_mem]
  refine ⟨matchDecodes_byte ?_, matchDecodes_byte ?_, matchDecodes_class ?_, matchDecodes_class ?_,
    matchDecodes_class ?_, matchDecodes_class ?_, matchDecodes_class ?_, matchDecodes_class ?_, matchDecodes_class ?_,
    matchDecodes_nibble ?_, matchDecodes_nibble ?_, matchDecodes_nibble ?_, matchDecodes_nibble ?_,
    matchDecodes_nibble ?_, matchDecodes_nibble ?_, matchDecodes_nibble ?_, matchDecodes_nibble ?_,
    matchDecodes_nibble ?_, matchDecodes_class ?_, matchDecodes_class ?_, matchDecodes_class ?_, matchDecodes_class ?_,
    matchDecodes_class ?_, matchDecodes_byte ?_, matchDecodes_byte ?_, matchDecodes_byte ?_, matchDecodes_byte ?_,
    matchDecodes_byte ?_, matchDecodes_byte ?_, matchDecodes_byte ?_, matchDecodes_byte ?_, matchDecodes_byte ?_,
    matchDecodes_byte ?_, matchDecodes_byte ?_⟩
  all_goals
    intros
    simp only [decode, decodeClass0, decodeClass8, decodeClassE, decodeClassF, *]
    rfl

/-! ### The round trip (R64, R66) -/

/-- Every instruction's encoding lies in its row. -/
theorem encodesInItsRow (i : Instr) : EncodesInItsRow.Statement i := by
  open EncodesInItsRow in
  cases i
  exacts [cls, ret, jp _, call _, seKk _ _, sneKk _ _, seVy _ _, ldKk _ _, addKk _ _, ldVy _ _, orVy _ _,
    andVy _ _, xorVy _ _, addVy _ _, subVy _ _, shr _ _, subnVy _ _, shl _ _, sneVy _ _, ldI _, jpV0 _, rnd _ _,
    drw _ _ _, skp _, sknp _, ldVxDt _, ldVxK _, ldDtVx _, ldStVx _, addI _, ldF _, ldB _, storeRegs _, loadRegs _]

/-- The fields of an encoding are the instruction's operands; `n` comes back because it is below 16. -/
theorem rowInstr_encode {i : Instr} (h : i.wellFormed = true) : rowInstr i.rowNumber (encode i) = i := by
  cases i
  case drw x y n =>
    have hn : n < 16 := Nat.lt_succ_of_le (of_decide_eq_true h)
    simp [rowInstr, Instr.rowNumber, encode, Nat.mod_eq_of_lt hn]
  all_goals simp [rowInstr, Instr.rowNumber, encode]

theorem decode_encode {i : Instr} (h : i.wellFormed = true) : decode (encode i) = .instr i := by
  obtain ⟨r, hr, hnum, hmatch⟩ := encodesInItsRow i
  calc decode (encode i) = .instr (rowInstr r.number (encode i)) := matchDecodes_of_mem r hr _ hmatch
    _ = .instr i := by rw [hnum, rowInstr_encode h]

theorem decodeBytes_encodeBytes (i : Instr) (rest : List Byte) :
    decodeBytes (encodeBytes i ++ rest) = decode (encode i) := by
  simp [encodeBytes, decodeBytes]

/-- Settles O1: the encoding lies in its instruction's row, and the row reads the operands back. -/
theorem decodeOfEncodeIsIdentity : Obligations.DecodeOfEncodeIsIdentity := fun i h =>
  ⟨decode_encode h, fun rest => (decodeBytes_encodeBytes i rest).trans (decode_encode h)⟩

/-! ### A decoded word on its examined bits (R70, R74, R78) -/

/-- The mask of 5xy0 and 9xy0 keeps class, x and y and clears the low nibble. -/
theorem maskXY_formatXYN (c : BitVec 4) (x y : Reg) (n : BitVec 4) :
    formatXYN c x y n &&& 0xFFF0 = formatXYN c x y 0x0 := by
  rw [show (0xFFF0 : Word) = 0xF#4 ++ 0xF#4 ++ 0xF#4 ++ 0x0#4 from rfl, formatXYN, BitVec.and_append,
    BitVec.and_append, BitVec.and_append]
  exact congrArg₂ _ (congrArg₂ _ (congrArg₂ _ (and_nibble c) (and_nibble _)) (and_nibble _)) BitVec.and_zero

/-- The instruction is well formed, and `op` is its encoding on every examined bit. -/
def EncodesOn (i : Instr) (op : Word) : Prop := i.wellFormed = true ∧ encode i = op &&& i.examinedBits

section
variable {op : Word} {i : Instr}

/-- A word of class `c` is format NNN of `c` and its address. -/
theorem formatNNN_eq {c : BitVec 4} (hc : (classOf op).toNat = c.toNat) :
    formatNNN c (fieldNnn op) = op &&& 0xFFFF := by
  rw [← BitVec.eq_of_toNat_eq hc, formatNNN_fields]
  exact BitVec.and_allOnes.symm

theorem formatXKK_eq {c : BitVec 4} {kk : Byte} (hc : (classOf op).toNat = c.toNat)
    (hk : (fieldKk op).toNat = kk.toNat) : formatXKK c (fieldX op) kk = op &&& 0xFFFF := by
  rw [← BitVec.eq_of_toNat_eq hc, ← BitVec.eq_of_toNat_eq hk, formatXKK_fields]
  exact BitVec.and_allOnes.symm

theorem formatXYN_eq {c n : BitVec 4} (hc : (classOf op).toNat = c.toNat) (hn : (fieldN op).toNat = n.toNat) :
    formatXYN c (fieldX op) (fieldY op) n = op &&& 0xFFFF := by
  rw [← BitVec.eq_of_toNat_eq hc, ← BitVec.eq_of_toNat_eq hn, formatXYN_fields]
  exact BitVec.and_allOnes.symm

/-- Format SYS: x is not examined and is encoded 0 (R70). -/
theorem formatXKK_zero_eq {c : BitVec 4} {kk : Byte} (hc : (classOf op).toNat = c.toNat)
    (hk : (fieldKk op).toNat = kk.toNat) : formatXKK c 0 kk = op &&& 0xF0FF := by
  have h := maskByte_formatXKK (classOf op) (fieldX op) (fieldKk op)
  rw [formatXKK_fields] at h
  rw [h, BitVec.eq_of_toNat_eq hc, BitVec.eq_of_toNat_eq hk]
  rfl

/-- Format XY: the low nibble is not examined and is encoded 0 (R74). -/
theorem formatXYN_zero_eq {c : BitVec 4} (hc : (classOf op).toNat = c.toNat) :
    formatXYN c (fieldX op) (fieldY op) 0x0 = op &&& 0xFFF0 := by
  have h := maskXY_formatXYN (classOf op) (fieldX op) (fieldY op) (fieldN op)
  rw [formatXYN_fields] at h
  rw [h, BitVec.eq_of_toNat_eq hc]

theorem encodesOn_of_decodeClass0 (hc : (classOf op).toNat = 0x0) (h : decodeClass0 op = .instr i) :
    EncodesOn i op := by
  unfold decodeClass0 at h
  split at h <;> cases h
  all_goals exact ⟨rfl, formatXKK_zero_eq hc ‹_›⟩

theorem encodesOn_of_decodeClass8 (hc : (classOf op).toNat = 0x8) (h : decodeClass8 op = .instr i) :
    EncodesOn i op := by
  unfold decodeClass8 at h
  split at h <;> cases h
  all_goals exact ⟨rfl, formatXYN_eq hc ‹_›⟩

theorem encodesOn_of_decodeClassE (hc : (classOf op).toNat = 0xE) (h : decodeClassE op = .instr i) :
    EncodesOn i op := by
  unfold decodeClassE at h
  split at h <;> cases h
  all_goals exact ⟨rfl, formatXKK_eq hc ‹_›⟩

theorem encodesOn_of_decodeClassF (hc : (classOf op).toNat = 0xF) (h : decodeClassF op = .instr i) :
    EncodesOn i op := by
  unfold decodeClassF at h
  split at h <;> cases h
  all_goals exact ⟨rfl, formatXKK_eq hc ‹_›⟩

/-- One case per class, by its format; the case of class `c` is `h_(c + 1)`. -/
theorem encodesOn_of_decode (h : decode op = .instr i) : EncodesOn i op := by
  unfold decode at h
  split at h
  case h_1 hc => exact encodesOn_of_decodeClass0 hc h
  case h_9 hc => exact encodesOn_of_decodeClass8 hc h
  case h_15 hc => exact encodesOn_of_decodeClassE hc h
  case h_16 hc => exact encodesOn_of_decodeClassF hc h
  all_goals cases h
  case h_2 hc | h_3 hc | h_11 hc | h_12 hc => exact ⟨rfl, formatNNN_eq hc⟩
  case h_4 hc | h_5 hc | h_7 hc | h_8 hc | h_13 hc => exact ⟨rfl, formatXKK_eq hc rfl⟩
  case h_6 hc | h_10 hc => exact ⟨rfl, formatXYN_zero_eq hc⟩
  case h_14 hc =>
    exact ⟨decide_eq_true (Nat.le_of_lt_succ (fieldN op).isLt), formatXYN_eq hc (by simp)⟩

/-! ### Words that agree on the examined bits -/

/-- The examined bits by the row's number: rows 1 and 2 ignore op[11:8], rows 7 and 19 ignore op[3:0]. -/
def rowBits (k : Nat) : Word := if k ∈ [1, 2] then 0xF0FF else if k ∈ [7, 19] then 0xFFF0 else 0xFFFF

theorem examinedBits_eq_rowBits (i : Instr) : i.examinedBits = rowBits i.rowNumber := by cases i <;> rfl

/-- A row's mask looks at examined bits only. -/
theorem rowBits_and_mask : ∀ r ∈ opcodeMap, rowBits r.number &&& r.mask = r.mask := by decide

/-- A word that agrees with a decoded one on the examined bits lies in the decoded instruction's row. -/
theorem exists_row_of_decode (h : decode op = .instr i) {op' : Word}
    (h' : op' &&& i.examinedBits = op &&& i.examinedBits) :
    ∃ r ∈ opcodeMap, r.number = i.rowNumber ∧ op' &&& r.mask = r.pattern := by
  obtain ⟨-, henc⟩ := encodesOn_of_decode h
  obtain ⟨r, hr, hnum, hmatch⟩ := encodesInItsRow i
  have hbits : i.examinedBits &&& r.mask = r.mask := by
    rw [examinedBits_eq_rowBits, ← hnum]
    exact rowBits_and_mask r hr
  refine ⟨r, hr, hnum, ?_⟩
  calc op' &&& r.mask = (op' &&& i.examinedBits) &&& r.mask := by rw [BitVec.and_assoc, hbits]
    _ = encode i &&& r.mask := by rw [h', henc]
    _ = r.pattern := hmatch

/-- Both words lie in one row, so both instructions have one encoding, and that decodes to one instruction. -/
theorem decode_congr (h : decode op = .instr i) {op' : Word}
    (h' : op' &&& i.examinedBits = op &&& i.examinedBits) : decode op' = .instr i := by
  obtain ⟨hwf, henc⟩ := encodesOn_of_decode h
  obtain ⟨r, hr, hnum, hmatch⟩ := exists_row_of_decode h h'
  have hd := matchDecodes_of_mem r hr op' hmatch
  obtain ⟨hwf', henc'⟩ := encodesOn_of_decode hd
  have hbits : (rowInstr r.number op').examinedBits = i.examinedBits := by
    rw [examinedBits_eq_rowBits, rowNumber_rowInstr op' r hr, hnum, ← examinedBits_eq_rowBits]
  have hsame : encode (rowInstr r.number op') = encode i := by rw [henc', hbits, h', henc]
  rw [hd, ← decode_encode hwf', hsame, decode_encode hwf]

end

/-- Settles O2: the word is its encoding on the examined bits, and these bits fix the decoded instruction. -/
theorem encodeOfDecodeKeepsExaminedBits : Obligations.EncodeOfDecodeKeepsExaminedBits := by
  intro op i h
  obtain ⟨hwf, henc⟩ := encodesOn_of_decode h
  exact ⟨hwf, henc, fun _ => decode_congr h⟩

/-! ### The opcode map (R75) -/

theorem row_eq_of_number_eq : ∀ r ∈ opcodeMap, ∀ q ∈ opcodeMap, r.number = q.number → r = q := by decide

theorem match_iff_decode (op : Word) {r : OpcodeRow} (hr : r ∈ opcodeMap) :
    op &&& r.mask = r.pattern ↔ ∃ i : Instr, decode op = .instr i ∧ i.rowNumber = r.number := by
  constructor
  · exact fun h => ⟨_, matchDecodes_of_mem r hr op h, rowNumber_rowInstr op r hr⟩
  · rintro ⟨i, hd, hi⟩
    obtain ⟨q, hq, hnum, hmatch⟩ := exists_row_of_decode hd rfl
    rwa [row_eq_of_number_eq r hr q hq (hi.symm.trans hnum.symm)]

/-- No word matches two rows: the word's instruction has one row number. -/
theorem row_eq_of_match (op : Word) {r q : OpcodeRow} (hr : r ∈ opcodeMap) (hq : q ∈ opcodeMap)
    (h : op &&& r.mask = r.pattern) (h' : op &&& q.mask = q.pattern) : r = q := by
  obtain ⟨i, hi, hnum⟩ := (match_iff_decode op hr).mp h
  obtain ⟨j, hj, hnum'⟩ := (match_iff_decode op hq).mp h'
  obtain rfl := Decoded.instr.inj (hi.symm.trans hj)
  exact row_eq_of_number_eq r hr q hq (hnum.symm.trans hnum')

/-- Settles O3: the decoder and the map agree row by row, and every instruction encodes in its row. -/
theorem decodeFollowsOpcodeMap : Obligations.DecodeFollowsOpcodeMap := by
  refine ⟨rfl, fun op r hr => match_iff_decode op hr, fun op r hr q hq => row_eq_of_match op hr hq, fun i => ?_⟩
  obtain ⟨r, hr, hnum, -⟩ := encodesInItsRow i
  exact ⟨r, hr, hnum⟩

/-! ### The words that decode to nothing (R76) -/

theorem toNat_classOf (op : Word) : (classOf op).toNat = op.toNat / 4096 := by
  have := op.isLt
  rw [classOf, BitVec.extractLsb'_toNat, Nat.shiftRight_eq_div_pow]
  omega

theorem toNat_fieldKk (op : Word) : (fieldKk op).toNat = op.toNat % 256 := by simp [fieldKk]

theorem toNat_fieldN (op : Word) : (fieldN op).toNat = op.toNat % 16 := by simp [fieldN]

section
variable {op : Word}

theorem decodeClass0_eq_unknown_iff : decodeClass0 op = .unknown op ↔ (fieldKk op).toNat ∉ [0xE0, 0xEE] := by
  unfold decodeClass0
  split <;> simp_all

theorem decodeClass8_eq_unknown_iff :
    decodeClass8 op = .unknown op ↔ (fieldN op).toNat ∈ [0x8, 0x9, 0xA, 0xB, 0xC, 0xD, 0xF] := by
  have := (fieldN op).isLt
  unfold decodeClass8
  split
  case h_10 => simp only [imp_false] at *; simp; omega
  all_goals simp [*]

theorem decodeClassE_eq_unknown_iff : decodeClassE op = .unknown op ↔ (fieldKk op).toNat ∉ [0x9E, 0xA1] := by
  unfold decodeClassE
  split <;> simp_all

theorem decodeClassF_eq_unknown_iff :
    decodeClassF op = .unknown op ↔
      (fieldKk op).toNat ∉ [0x07, 0x0A, 0x15, 0x18, 0x1E, 0x29, 0x33, 0x55, 0x65] := by
  unfold decodeClassF
  split <;> simp_all

theorem decode_eq_unknown_iff :
    decode op = .unknown op ↔
      ((classOf op).toNat = 0x0 ∧ decodeClass0 op = .unknown op) ∨
      ((classOf op).toNat = 0x8 ∧ decodeClass8 op = .unknown op) ∨
      ((classOf op).toNat = 0xE ∧ decodeClassE op = .unknown op) ∨
      ((classOf op).toNat = 0xF ∧ decodeClassF op = .unknown op) := by
  have := (classOf op).isLt
  unfold decode
  split
  case h_17 => simp only [imp_false] at *; omega
  all_goals simp [*]

end

theorem decode_instr_or_unknown (op : Word) : (∃ i : Instr, decode op = .instr i) ∨ decode op = .unknown op := by
  cases hd : decode op with
  | instr i => exact .inl ⟨i, rfl⟩
  | unknown op' => exact .inr (decode_eq_unknown hd ▸ rfl)
  | truncated => exact absurd hd (decode_ne_truncated op)

/-- Settles O4: class by class, with the fields read as numbers. -/
theorem unknownWordsAreExactlyListed : Obligations.UnknownWordsAreExactlyListed := by
  intro op
  refine ⟨decode_instr_or_unknown op, ?_⟩
  rw [decode_eq_unknown_iff, decodeClass0_eq_unknown_iff, decodeClass8_eq_unknown_iff, decodeClassE_eq_unknown_iff,
    decodeClassF_eq_unknown_iff, toNat_classOf, toNat_fieldKk, toNat_fieldN]

/-! ### Layouts (R66) -/

/-- A layout without ignored bits is an encoding as it stands. -/
theorem decode_of_eq_encode {op : Word} {i : Instr} (hop : op = encode i) (h : i.wellFormed = true) :
    decode op = .instr i := hop ▸ decode_encode h

/-- CLS and RET with any op[11:8] (R70). -/
theorem decode_sys {i : Instr} {s : Byte} (ign : BitVec 4) (hi : encode i = formatXKK 0x0 0 s)
    (hb : i.examinedBits = 0xF0FF) (h : i.wellFormed = true) : decode (0x0#4 ++ ign ++ s) = .instr i := by
  refine decode_congr (decode_encode h) ?_
  rw [hi, hb, maskByte_formatXKK]
  exact maskByte_formatXKK 0x0 ign.toFin s

/-- 5xy0 and 9xy0 with any op[3:0] (R74). -/
theorem decode_xy {i : Instr} {c x y : BitVec 4} (ign : BitVec 4) (hi : encode i = formatXYN c x.toFin y.toFin 0x0)
    (hb : i.examinedBits = 0xFFF0) (h : i.wellFormed = true) : decode (c ++ x ++ y ++ ign) = .instr i := by
  refine decode_congr (decode_encode h) ?_
  rw [hi, hb, maskXY_formatXYN]
  exact maskXY_formatXYN c x.toFin y.toFin ign

/-- Settles O5: a layout is the encoding of its instruction, or agrees with it on the examined bits. -/
theorem everyLayoutDecodesToItsRow : Obligations.EveryLayoutDecodesToItsRow := by
  intro x y n ign kk nnn
  refine ⟨?cls, ?ret, ?_, ?_, ?_, ?_, ?seVy, ?_, ?_, ?_, ?_, ?_, ?_, ?_, ?_, ?_, ?_, ?_, ?sneVy, ?_, ?_, ?_, ?drw,
    ?_, ?_, ?_, ?_, ?_, ?_, ?_, ?_, ?_, ?_, ?_⟩
  case cls | ret => exact decode_sys ign rfl rfl rfl
  case seVy | sneVy => exact decode_xy ign rfl rfl rfl
  case drw =>
    refine decode_of_eq_encode ?_ (decide_eq_true (Nat.le_of_lt_succ n.isLt))
    simp [encode, formatXYN]
  all_goals exact decode_of_eq_encode rfl rfl

/-- Settles O6: the decoder computes on each word. -/
theorem sampleWordsDecode : Obligations.SampleWordsDecode := by
  unfold Obligations.SampleWordsDecode
  decide

end Sys2Proof

/-! PROOFS. The family of the step cycle (spec/40_step_cycle.md): how a step ends, what it does to the timers and what
it emits, and the runs that only let time pass. -/

namespace Sys2Proof.Machine

/-- Settles O40: no instruction and no step answers anything but a next state. -/
theorem everyStepCompletes : Obligations.EveryStepCompletes := ⟨exec_completes, step_completes⟩

/-! ### The end of a step that does not fault (R81, R87, R88) -/

/-- The tick and the taking of the input as one update of the record. -/
theorem State.tick_takeInput_eq (s : State) : s.tick.takeInput =
    { s with events := s.events ++ (if s.st = 1 then [.tone] else []), dt := countDown s.dt, st := countDown s.st,
             rndIn := s.rndIn.tail, rndCount := s.rndCount + 1 } := by
  unfold State.tick State.soundTone
  split
  · rfl
  · rw [List.append_nil]
    rfl

/-- Settles O32: the two ends of a step, after an instruction that completes and after one that faults. -/
theorem stepRunsTheDecodedInstruction : Obligations.StepRunsTheDecodedInstruction := by
  intro i s t hh hpc hd hx
  have hstep := step_eq_exec hh hpc hd hx
  refine ⟨fun ht => ?_, fun ht => ?_⟩
  · rw [hstep, if_neg ht, State.tick_takeInput_eq]
    rfl
  · rw [hstep, if_pos ht]
    rfl

/-! ### The timers and the events of a step (R87 to R90, R92) -/

/-- `left` is what the instruction at pc leaves in a timer that held `old`: V[x] if it is the timer's load `ld x`
(R133, R134), else `old`. -/
structure TimerLeft (ld : Reg → Instr) (s : State) (old left : Byte) : Prop where
  of_load : ∀ x, decode s.fetchWord = .instr (ld x) → left = s.readV x
  of_no_load : (∀ x, decode s.fetchWord ≠ .instr (ld x)) → left = old

/-- The DecodeWarning of a step that does not fault, if the fetched opcode decodes to nothing (R90). -/
def State.warnings (s : State) : List Event :=
  if decode s.fetchWord = .unknown s.fetchWord then [.decodeWarning s.fetchWord] else []

theorem decodeWarning_mem_warnings (s : State) (op : Word) :
    .decodeWarning op ∈ s.warnings ↔ op = s.fetchWord ∧ decode op = .unknown op := by
  simp only [State.warnings, List.mem_ite_nil_right, List.mem_singleton, Event.decodeWarning.injEq]
  constructor
  · rintro ⟨hd, rfl⟩
    exact ⟨rfl, hd⟩
  · rintro ⟨rfl, hd⟩
    exact ⟨hd, rfl⟩

theorem tone_notMem_warnings (s : State) : .tone ∉ s.warnings := by simp [State.warnings]

section
variable {s t : State} {ld : Reg → Instr} {old left : Byte}

theorem TimerLeft.eq_iff (h : TimerLeft ld s old left) (b : Byte) :
    left = b ↔ (∃ x, decode s.fetchWord = .instr (ld x) ∧ s.readV x = b) ∨
      ((∀ x, decode s.fetchWord ≠ .instr (ld x)) ∧ old = b) := by
  by_cases hld : ∃ x, decode s.fetchWord = .instr (ld x)
  · obtain ⟨x, hx⟩ := hld
    rw [h.of_load x hx]
    refine ⟨fun hb => .inl ⟨x, hx, hb⟩, ?_⟩
    rintro (⟨y, hy, hb⟩ | ⟨hno, -⟩)
    · rw [← h.of_load x hx, h.of_load y hy, hb]
    · exact absurd hx (hno x)
  · have hno := not_exists.mp hld
    rw [h.of_no_load hno]
    refine ⟨fun hb => .inr ⟨hno, hb⟩, ?_⟩
    rintro (⟨x, hx, -⟩ | ⟨-, hb⟩)
    · exact absurd hx (hno x)
    · exact hb

/-- An opcode that decodes to nothing loads no timer. -/
theorem timerLeft_of_unknown {op : Word} (hd : decode s.fetchWord = .unknown op) : TimerLeft ld s old old :=
  ⟨fun _ hx => Decoded.noConfusion (hd.symm.trans hx), fun _ => rfl⟩

/-- An instruction leaves V[x] in the timer if it loads it, and changes the timer only if it does. -/
theorem timerLeft_of_instr {i : Instr} (hd : decode s.fetchWord = .instr i)
    (hload : ∀ x, i = ld x → left = s.readV x) (hkeep : left ≠ old → ∃ x, i = ld x) : TimerLeft ld s old left where
  of_load x hx := hload x (Decoded.instr.inj (hd.symm.trans hx))
  of_no_load hno := by
    by_contra hne
    obtain ⟨x, rfl⟩ := hkeep hne
    exact hno x hd

theorem exec_timerLeft {i : Instr} {u : State} (hd : decode s.fetchWord = .instr i)
    (hx : exec i (s.latched s.fetchWord) = .next u) :
    TimerLeft .ldDtVx s s.dt u.dt ∧ TimerLeft .ldStVx s s.st u.st := by
  obtain ⟨-, -, -, hdt, hst, -⟩ := (exec_writesFields i _).holds hx
  refine ⟨timerLeft_of_instr hd (fun x hi => ?_) hdt, timerLeft_of_instr hd (fun x hi => ?_) hst⟩
  all_goals
    obtain rfl := hi
    obtain rfl := Host.Outcome.next.inj hx
    simp

/-- A step ends halted, with both timers as they were and no event; or it ends with each timer counted down once from
what the instruction left in it, the warning of an unknown opcode, and then the Tone. -/
theorem step_ends (h : step s = .next t) :
    (t.halted ∧ t.dt = s.dt ∧ t.st = s.st ∧ t.events = []) ∨
    (¬ s.halted ∧ ¬ t.halted ∧ ∃ d n, TimerLeft .ldDtVx s s.dt d ∧ TimerLeft .ldStVx s s.st n ∧
      t.dt = countDown d ∧ t.st = countDown n ∧ t.events = s.warnings ++ if n = 1 then [.tone] else []) := by
  obtain ⟨hh, rfl⟩ | ⟨hh, hpc, rfl⟩ | ⟨hh, hpc, hd, rfl⟩ | ⟨hh, hpc, i, u, hd, hx, rfl⟩ := step_cases h
  · exact .inl ⟨hh, rfl, rfl, rfl⟩
  · exact .inl ⟨Fault.code_ne_zero .fetchOutOfRange, rfl, rfl, rfl⟩
  · refine .inr ⟨hh, by simpa using hh, s.dt, s.st, timerLeft_of_unknown hd, timerLeft_of_unknown hd, ?_⟩
    rw [State.tick_takeInput_eq, State.warnings, if_pos hd]
    exact ⟨rfl, rfl, rfl⟩
  · by_cases hu : u.halted
    · rw [if_pos hu]
      exact .inl ⟨hu, rfl, rfl, rfl⟩
    · have hev : u.events = [] := by
        obtain hf | ⟨-, -, -, -, -, -, hev, -⟩ := exec_cases hx
        · exact absurd hf.halted hu
        · exact hev
      obtain ⟨hdt, hst⟩ := exec_timerLeft hd hx
      have hwarn : s.warnings = [] := if_neg (by simp [hd])
      rw [if_neg hu, State.tick_takeInput_eq, hev, hwarn]
      exact .inr ⟨hh, hu, u.dt, u.st, hdt, hst, rfl, rfl, rfl⟩

end

/-- Settles O38: the timers are those of `step_ends`, read as numbers. -/
theorem everyStepTicksTheTimers : Obligations.EveryStepTicksTheTimers := by
  intro s t h
  obtain ⟨ht, hdt, hst, -⟩ | ⟨hs, ht, d, n, hd, hn, hdt, hst, -⟩ := step_ends h
  · exact ⟨fun hnt => absurd ht hnt, fun _ => ⟨hdt, hst⟩⟩
  · refine ⟨fun _ => ?_, fun hor => absurd hor (not_or.mpr ⟨hs, ht⟩)⟩
    rw [hdt, hst, toNat_countDown, toNat_countDown]
    exact ⟨fun hno => by rw [hd.of_no_load hno], fun x hx => by rw [hd.of_load x hx],
      fun hno => by rw [hn.of_no_load hno], fun x hx => by rw [hn.of_load x hx]⟩

/-- Settles O39: the events are those of `step_ends`, the warning and the Tone each there or not. -/
theorem eventsOfAStepAreExact : Obligations.EventsOfAStepAreExact := by
  intro s t h
  obtain ⟨ht, -, -, hev⟩ | ⟨-, ht, d, n, -, hn, -, -, hev⟩ := step_ends h
  · exact ⟨fun _ => hev, fun hnt => absurd ht hnt⟩
  · refine ⟨fun hyes => absurd hyes ht, fun _ => ⟨fun op => ?_, ?_, ?_⟩⟩
    · simp [hev, decodeWarning_mem_warnings]
    · rw [hev, ← hn.eq_iff]
      simp [tone_notMem_warnings]
    · rw [hev, State.warnings]
      split <;> split <;> simp

/-! ### Runs -/

/-- What every step hands on, with the number of the step, a run hands on. -/
theorem run_ensures {P : Nat → State → Prop} (hstep : ∀ k t, P k t → Ensures (step t) (P (k + 1))) (n : Nat)
    {k : Nat} {s : State} (h : P k s) : ∃ t : State, Host.Core.run Sys2Proof.core n s = .next t ∧ P (k + n) t := by
  induction n generalizing k s with
  | zero => exact ⟨s, rfl, h⟩
  | succ n ih =>
    obtain ⟨u, hu, hP⟩ := hstep k s h
    rw [run_succ_of_step hu, ← Nat.add_assoc, Nat.add_right_comm]
    exact ih hP

/-! ### The halt (R83) -/

/-- `t` is the halted `s` after some steps of the halted block. -/
structure StillHalted (s t : State) : Prop where
  halted : t.halted
  events : t.events = []
  pc : t.pc = s.pc
  frame : Frame (fun p => p = .events ∨ p = .input) s t

theorem frame_idle (s : State) : Frame (fun p => p = .events ∨ p = .input) s s.idle := by
  intro p hp
  cases p with
  | events | input => simp at hp
  | _ => simp [Part.same]

theorem stillHalted_idle {s : State} (hh : s.halted) : StillHalted s s.idle := ⟨hh, rfl, rfl, frame_idle s⟩

theorem StillHalted.trans {s t u : State} (hst : StillHalted s t) (htu : StillHalted t u) : StillHalted s u :=
  ⟨htu.halted, htu.events, htu.pc.trans hst.pc, hst.frame.trans htu.frame⟩

/-- Settles O34: the first step empties the event list, and every later one changes nothing that is left. -/
theorem haltedBlockDoesNothing : Obligations.HaltedBlockDoesNothing := by
  intro n s hh
  obtain ⟨t, hrun, ht⟩ := run_ensures (P := fun _ => StillHalted s)
    (fun _ t ht => ⟨t.idle, step_eq_idle ht.halted, ht.trans (stillHalted_idle ht.halted)⟩) n (k := 0)
    (stillHalted_idle hh)
  exact ⟨t, (run_succ_of_step (step_eq_idle hh)).trans hrun, ht.halted, ht.events, ht.pc, ht.frame⟩

/-! ### Time that passes: steps that change the timers, the latch, the events and the input alone (R89 to R91) -/

/-- `t` is `s` after `n` ticks, with no effect of an instruction between. -/
structure Elapsed (n : Nat) (s t : State) : Prop where
  pc : t.pc = s.pc
  dt : t.dt.toNat = s.dt.toNat - n
  st : t.st.toNat = s.st.toNat - n
  frame : Frame (fun p => p = .delay ∨ p = .sound ∨ p = .latch ∨ p = .events ∨ p = .input) s t

section
variable {s t u : State} {n m : Nat}

theorem Elapsed.refl (s : State) : Elapsed 0 s s := ⟨rfl, rfl, rfl, Frame.refl s⟩

theorem Elapsed.trans (hst : Elapsed n s t) (htu : Elapsed m t u) : Elapsed (n + m) s u where
  pc := htu.pc.trans hst.pc
  dt := by rw [htu.dt, hst.dt, Nat.sub_sub]
  st := by rw [htu.st, hst.st, Nat.sub_sub]
  frame := hst.frame.trans htu.frame

theorem elapsed_latched (s : State) (op : Word) : Elapsed 0 s (s.latched op) := by
  refine ⟨rfl, rfl, rfl, fun p hp => ?_⟩
  cases p with
  | latch | events => simp at hp
  | _ => simp [Part.same]

theorem elapsed_emit (s : State) (e : Event) : Elapsed 0 s (s.emit e) := by
  refine ⟨rfl, rfl, rfl, fun p hp => ?_⟩
  cases p with
  | events => simp at hp
  | _ => simp [Part.same]

theorem elapsed_tick (s : State) : Elapsed 1 s s.tick.takeInput := by
  refine ⟨by simp, by simp [toNat_countDown], by simp [toNat_countDown], fun p hp => ?_⟩
  cases p with
  | delay | sound | events | input => simp at hp
  | _ => simp [Part.same]

/-- While time passes, a block that is not halted stays so, and the same opcode is fetched. -/
theorem Elapsed.fetches (h : Elapsed n s t) : t.faultCode = s.faultCode ∧ t.fetchWord = s.fetchWord := by
  obtain ⟨hcode, -⟩ := h.frame .faultRegs (by simp)
  exact ⟨hcode, fetchWord_congr h.pc fun a => h.frame (.byte a) (by simp)⟩

end

/-- Settles O35: the step latches the opcode, emits the warning and ticks. -/
theorem unknownOpcodeWarnsAndStays : Obligations.UnknownOpcodeWarnsAndStays := by
  intro s hh hpc hd
  obtain ⟨hpc', hdt, hst, hframe⟩ := ((elapsed_latched s s.fetchWord).trans
    (elapsed_emit _ (.decodeWarning s.fetchWord))).trans (elapsed_tick _)
  refine ⟨_, step_eq_warn hh hpc hd, hpc', ?_, hdt, hst, by simp, hframe⟩
  rw [State.tick_takeInput_eq]
  rfl

/-! ### The key wait (R91, R132) -/

/-- The next step executes Fx0A, and no key is pressed. -/
structure State.WaitsForKey (x : Reg) (s : State) : Prop where
  not_halted : ¬ s.halted
  pc_le : s.pc.toNat ≤ 0xFFE
  decodes : decode s.fetchWord = .instr (.ldVxK x)
  no_key : ∀ k, s.keyDown k = false

section
variable {x : Reg} {s t : State} {n : Nat}

theorem State.WaitsForKey.elapsed (hs : s.WaitsForKey x) (h : Elapsed n s t) : t.WaitsForKey x := by
  obtain ⟨hcode, hop⟩ := h.fetches
  exact ⟨by rw [State.halted, hcode]; exact hs.not_halted, by rw [h.pc]; exact hs.pc_le,
    by rw [hop]; exact hs.decodes, fun k => (h.frame (.key k) (by simp)).trans (hs.no_key k)⟩

/-- A waiting step repeats, and ticks (R91). -/
theorem State.WaitsForKey.repeats (hs : s.WaitsForKey x) : Ensures (step s) (Elapsed 1 s) := by
  have hnone : chosenKey hardware.fx0aPriority (s.latched s.fetchWord).pressedKeys = none :=
    (chosenKey_eq_none _ _).mpr hs.no_key
  have hx : exec (.ldVxK x) (s.latched s.fetchWord) = .next (s.latched s.fetchWord) := by
    simp only [exec, execLdVxK, hnone]
  refine ⟨_, step_eq_exec hs.not_halted hs.pc_le hs.decodes hx, ?_⟩
  rw [if_neg (by simpa using hs.not_halted)]
  exact (elapsed_latched s _).trans (elapsed_tick _)

/-- The key taken when `k` alone is pressed is `k` (R132). -/
theorem chosenKey_keyWrite (hs : ∀ q, s.keyDown q = false) (k : Reg) :
    chosenKey .highest (keyWrite k true s).pressedKeys = some k := by
  cases hc : chosenKey .highest (keyWrite k true s).pressedKeys with
  | none =>
    have hk := (chosenKey_eq_none _ _).mp hc k
    simp [keyDown_keyWrite] at hk
  | some q =>
    obtain ⟨hq, -⟩ := chosenKey_highest _ q hc
    simp only [keyDown_keyWrite, hs] at hq
    simpa using hq

@[simp] theorem toNat_keyByte (k : Reg) : (keyByte k).toNat = k.val := by
  simp only [keyByte, BitVec.toNat_ofNat]
  omega

/-- A waiting step that starts with `k` pressed completes Fx0A with `k` (R91). -/
theorem State.WaitsForKey.completes (hs : s.WaitsForKey x) (k : Reg) :
    Ensures (step (keyWrite k true s)) fun u => (u.readV x).toNat = k.val ∧ u.pc = s.pc + 2 := by
  have hkey : chosenKey hardware.fx0aPriority ((keyWrite k true s).latched s.fetchWord).pressedKeys = some k :=
    chosenKey_keyWrite hs.no_key k
  have hx : exec (.ldVxK x) ((keyWrite k true s).latched s.fetchWord) =
      .next ((((keyWrite k true s).latched s.fetchWord).writeV x (keyByte k)).advance 2) := by
    simp only [exec, execLdVxK, hkey]
  refine ⟨_, step_eq_exec (s := keyWrite k true s) hs.not_halted hs.pc_le hs.decodes hx, ?_⟩
  rw [if_neg (by simpa using hs.not_halted)]
  simp

end

/-- Settles O31: the wait lasts while only time passes, and a pressed key ends it. -/
theorem keyWaitRepollsUntilPressed : Obligations.KeyWaitRepollsUntilPressed := by
  intro x n s hh hpc hd hkeys
  have hs : s.WaitsForKey x := ⟨hh, hpc, hd, hkeys⟩
  obtain ⟨t, hrun, ht⟩ := run_ensures (P := fun k => Elapsed k s)
    (fun k t ht => by
      obtain ⟨u, hu, htu⟩ := (hs.elapsed ht).repeats
      exact ⟨u, hu, ht.trans htu⟩) n (Elapsed.refl s)
  rw [Nat.zero_add] at ht
  refine ⟨t, hrun, ht.pc, ht.dt, ht.st, ht.frame, fun k => ?_⟩
  rw [← ht.pc]
  exact (hs.elapsed ht).completes k

end Sys2Proof.Machine

/-! PROOFS. The family of control flow (spec/41_flow.md): jumps, skips, calls and returns, their faults and frames, and
the jump to its own address. -/

namespace Sys2Proof.Machine

/-- Row `k` of R75's table, found in it by its number, pattern and mask, decodes to its instruction. -/
theorem matchDecodes_row (k : Nat) {mask pattern : Word} (hr : ⟨k, pattern, mask⟩ ∈ opcodeMap) :
    MatchDecodes mask pattern (rowInstr k) :=
  matchDecodes_of_mem _ hr

/-! ### Frames of the shared operations -/

section
variable {may : Part → Prop} (s : State)

/-- PC is no part of a frame, so a move of pc keeps any frame. -/
theorem frame_setPc (w : Word) : Frame may s (s.setPc w) := by
  intro p _
  cases p <;> simp [Part.same]

theorem frame_advance (k : Nat) : Frame may s (s.advance k) := frame_setPc s _

theorem frame_takeFault (f : Fault) (w : Word) : Frame (fun p => p = .faultRegs) s (s.takeFault f w) := by
  intro p hp
  cases p with
  | faultRegs => exact absurd rfl hp
  | _ => simp [Part.same]

theorem frame_popped : Frame (fun p => p = .depth) s (popped s) := by
  intro p hp
  cases p with
  | depth => exact absurd rfl hp
  | _ => simp [Part.same]

theorem frame_pushed (w : Word) {j : Fin 16} (hj : s.sp.val = j.val) (h : s.sp.val < 16) :
    Frame (fun p => p = .depth ∨ p = .entry j) s (pushed s w h) := by
  intro p hp
  cases p with
  | depth => exact absurd (.inl rfl) hp
  | entry k =>
    have hk : k.val ≠ s.sp.val := fun e => hp (.inr (congrArg Part.entry (Fin.ext (e.trans hj))))
    exact (stackAt_pushed s w h k).trans (if_neg hk)
  | _ => simp [Part.same]

end

/-! ### What each instruction answers -/

section
variable {s : State} {nnn : Addr}

/-- Any cause but that of the fetch records the opcode in the latch (R142). -/
theorem raises_of_exec {i : Instr} {f : Fault} {w : Word} (hf : f ≠ .fetchOutOfRange)
    (h : exec i s = raise f w s) : Raises i s f.code w :=
  ⟨_, h, rfl, rfl, State.opcodeFor_of_ne s f hf, rfl, rfl, frame_takeFault s f w⟩

theorem exec_ret_empty (h : s.sp.val = 0) : exec .ret s = raise .stackUnderflow s.spWord s := if_pos h

theorem exec_ret_next {j : Fin 16} (h : s.sp.val = j.val + 1) :
    exec .ret s = .next ((popped s).setPc (s.stackAt j + 2)) := by
  obtain ⟨h0, -⟩ | ⟨k, hk, hp⟩ := pop_cases s fun t s' => .next (s'.setPc (t + 2))
  · omega
  · obtain rfl : k = j := Fin.ext (by omega)
    exact hp

theorem exec_call_full (h : s.sp.val = 16) : exec (.call nnn) s = raise .stackOverflow s.spWord s :=
  dif_neg (by omega)

theorem exec_call_next (h : s.sp.val < 16) :
    exec (.call nnn) s = .next ((pushed s s.pc h).setPc (zextAddr nnn)) := dif_pos h

theorem toNat_zextAddr (nnn : Addr) : (zextAddr nnn).toNat = nnn.toNat :=
  BitVec.toNat_setWidth_of_le (by decide)

/-- The target of Bnnn is the unmasked sum: at most 0x10FE, it does not wrap (R101). -/
theorem toNat_zextAddr_add_zextByte (nnn : Addr) (b : Byte) :
    (zextAddr nnn + zextByte b).toNat = nnn.toNat + b.toNat := by
  have hb : (zextByte b).toNat = b.toNat := BitVec.toNat_setWidth_of_le (by decide)
  rw [BitVec.toNat_add, toNat_zextAddr, hb]
  omega

/-- A skip moves pc alone. -/
theorem ensures_skipIf_frame {c : Bool} {k : Word} (hk : k = if c then 4 else 2) :
    Ensures (skipIf s c) fun t => t.pc = s.pc + k ∧ Frame (fun _ => False) s t := by
  refine ensures_skipIf.mpr ⟨?_, frame_advance s _⟩
  rw [State.advance_writes, hk]
  cases c <;> rfl

end

/-! ### Jumps and skips (R95, R97 to R101) -/

/-- Settles O8: both jumps set pc, to a target that as a number is the address or the unmasked sum. -/
theorem jumpsReplacePc : Obligations.JumpsReplacePc := by
  refine ⟨matchDecodes_row 3 (by decide), matchDecodes_row 21 (by decide), fun nnn s => ⟨?_, ?_⟩⟩
  · exact ⟨_, rfl, toNat_zextAddr nnn, frame_setPc s _⟩
  · exact ⟨_, rfl, toNat_zextAddr_add_zextByte nnn _, frame_setPc s _⟩

/-- Settles O10: the four instructions are `skipIf` of their conditions. -/
theorem registerSkips : Obligations.RegisterSkips := by
  refine ⟨matchDecodes_row 5 (by decide), matchDecodes_row 6 (by decide), matchDecodes_row 7 (by decide),
    matchDecodes_row 19 (by decide), fun x y kk s => ?_⟩
  exact ⟨ensures_skipIf_frame (by simp), ensures_skipIf_frame (by simp), ensures_skipIf_frame (by simp),
    ensures_skipIf_frame (by simp)⟩

/-! ### Calls and returns (R94, R96, R102) -/

/-- Settles O7: an empty stack raises, and a pop leaves the entry where it was. -/
theorem retResumesAfterTheCall : Obligations.RetResumesAfterTheCall := by
  refine ⟨matchDecodes_row 2 (by decide), fun s => ⟨fun h => ?_, fun j h => ?_⟩⟩
  · have hinfo : s.spWord = 0 := congrArg (BitVec.ofNat 16) h
    exact hinfo ▸ raises_of_exec (by decide) (exec_ret_empty h)
  · exact ⟨_, exec_ret_next h, rfl, Nat.sub_eq_of_eq_add h, (frame_popped s).trans (frame_setPc _ _)⟩

/-- Settles O9: a full stack raises, and a push writes the entry at the old depth. -/
theorem callPushesItsOwnAddress : Obligations.CallPushesItsOwnAddress := by
  refine ⟨matchDecodes_row 4 (by decide), fun nnn s => ⟨fun h => ?_, fun j h => ?_⟩⟩
  · have hinfo : s.spWord = 16 := congrArg (BitVec.ofNat 16) h
    exact hinfo ▸ raises_of_exec (by decide) (exec_call_full h)
  · have hlt : s.sp.val < 16 := h ▸ j.isLt
    refine ⟨_, exec_call_next hlt, toNat_zextAddr nnn, ?_, congrArg (· + 1) h,
      (frame_pushed s s.pc h hlt).trans (frame_setPc _ _)⟩
    exact (stackAt_pushed s s.pc hlt j).trans (if_pos h.symm)

/-- Settles O11: RET pops the entry that CALL pushed, and neither touches an entry below it. -/
theorem callThenRetReturns : Obligations.CallThenRetReturns := by
  intro nnn s t u hlt hcall hsp hentries
  obtain ⟨-, call⟩ := callPushesItsOwnAddress
  obtain ⟨-, ret⟩ := retResumesAfterTheCall
  obtain ⟨t', hcall', -, htop, hdepth, hpushed⟩ := (call nnn s).2 ⟨s.sp.val, hlt⟩ rfl
  obtain rfl := Host.Outcome.next.inj (hcall'.symm.trans hcall)
  obtain ⟨w, hret, hpc, hwsp, hpopped⟩ := (ret u).2 ⟨s.sp.val, hlt⟩ (hsp ▸ hdepth)
  refine ⟨w, hret, ?_, Fin.ext hwsp, fun j hj => ?_⟩
  · rw [hpc, hentries, htop]
  · have hne : j ≠ ⟨s.sp.val, hlt⟩ := Fin.ne_of_lt hj
    calc w.stackAt j = u.stackAt j := hpopped (.entry j) (by simp)
      _ = t'.stackAt j := hentries j
      _ = s.stackAt j := hpushed (.entry j) (by simpa using hne)

/-! ### The jump to its own address (R95, D29) -/

section
variable {s t : State} {n : Nat}

theorem State.atHaltJump.elapsed (hs : s.atHaltJump) (h : Elapsed n s t) : t.atHaltJump := by
  obtain ⟨hcode, hop⟩ := h.fetches
  unfold State.atHaltJump State.halted
  rwa [hcode, hop, h.pc]

/-- The jump sets pc to what it was, so its step is a tick. -/
theorem State.atHaltJump.repeats (hs : s.atHaltJump) : Ensures (step s) (Elapsed 1 s) := by
  obtain ⟨hh, hpc, nnn, hd, hn⟩ := hs
  have hself : zextAddr nnn = s.pc := BitVec.eq_of_toNat_eq ((toNat_zextAddr nnn).trans hn)
  have hx : exec (.jp nnn) (s.latched s.fetchWord) = .next (s.latched s.fetchWord) := by
    rw [exec, execJp, hself]
    rfl
  refine ⟨_, step_eq_exec hh hpc hd hx, ?_⟩
  rw [if_neg (by simpa using hh)]
  exact (elapsed_latched s _).trans (elapsed_tick _)

end

/-- Settles O37: the jump stands at its own address as long as only time passes, and only time passes at it. -/
theorem jumpToSelfHolds : Obligations.JumpToSelfHolds := by
  intro n s hs
  obtain ⟨t, hrun, ht⟩ := run_ensures (P := fun k => Elapsed k s)
    (fun k t ht => by
      obtain ⟨u, hu, htu⟩ := (hs.elapsed ht).repeats
      exact ⟨u, hu, ht.trans htu⟩) n (Elapsed.refl s)
  rw [Nat.zero_add] at ht
  exact ⟨t, hrun, ht.pc, hs.elapsed ht, ht.dt, ht.st, ht.frame⟩

end Sys2Proof.Machine

/-! PROOFS. The family of register loads and arithmetic (spec/42_alu.md): the two ways such an instruction ends, the
numbers of its results and flags, and what each instruction leaves. -/

namespace Sys2Proof.Machine

/-! ### The two ways an instruction of this family ends (R20, R21) -/

theorem Ensures.imp {r : Result} {P Q : State → Prop} (h : Ensures r P) (hPQ : ∀ t, P t → Q t) : Ensures r Q := by
  obtain ⟨t, ht, hP⟩ := h
  exact ⟨t, ht, hPQ t hP⟩

section
variable (s : State)

theorem frame_writeV {may : Part → Prop} {r : Reg} (hr : may (.v r)) (b : Byte) : Frame may s (s.writeV r b) := by
  intro p hp
  cases p with
  | v q =>
    have hq : q ≠ r := fun e => hp (e ▸ hr)
    exact (s.readV_writeV r q b).trans (if_neg hq)
  | _ => simp [Part.same]

theorem frame_writeFlag {may : Part → Prop} (hf : may (.v .vf)) (flag : Bool) : Frame may s (s.writeFlag flag) :=
  frame_writeV s hf _

/-- Without a flag, Vx alone is written (R104 to R109, R115). -/
theorem ensures_aluPlain (x : Reg) (r : Byte) :
    Ensures (aluPlain s x r) fun t => t.readV x = r ∧ t.pc = s.pc + 2 ∧ Frame (fun p => p = .v x) s t :=
  ensures_next.mpr ⟨by simp, by simp, Frame.trans (frame_writeV s (by rfl) r) (frame_advance _ 2)⟩

/-- The flag is written after Vx, so it is what VF holds in the end even where x is F (R21). -/
theorem ensures_aluFlag (x : Reg) (r : Byte) (flag : Bool) :
    Ensures (aluFlag s x r flag 2) fun t => (x ≠ .vf → t.readV x = r) ∧ t.readV .vf = (if flag then 1 else 0) ∧
      t.pc = s.pc + 2 ∧ Frame (fun p => p = .v x ∨ p = .v .vf) s t := by
  refine ensures_next.mpr ⟨fun hx => by simp [hx], by simp, by simp, ?_⟩
  exact Frame.trans (frame_writeV s (.inl rfl) r)
    (Frame.trans (frame_writeFlag _ (.inr rfl) flag) (frame_advance _ 2))

end

/-! ### Results and flags as numbers (R37) -/

section
variable (a b : Byte)

theorem toNat_sub_int : ((a - b).toNat : Int) = (a.toNat - b.toNat : Int) % 256 := by
  rw [BitVec.toNat_sub]
  omega

theorem toNat_ushiftRight_one : (a >>> 1).toNat = a.toNat / 2 := by
  rw [BitVec.toNat_ushiftRight, Nat.shiftRight_eq_div_pow, pow_one]

theorem toNat_shiftLeft_one : (a <<< 1).toNat = 2 * a.toNat % 256 := by
  rw [BitVec.toNat_shiftLeft, Nat.shiftLeft_eq, pow_one, Nat.mul_comm]

theorem toNat_flagByte (flag : Bool) : (if flag then (1 : Byte) else 0).toNat = flag.toNat := by
  cases flag <;> rfl

theorem toNat_shiftedOutRight : (shiftedOutRight a).toNat = a.toNat % 2 := by
  rw [shiftedOutRight, BitVec.getLsbD, Nat.toNat_testBit, pow_zero, Nat.div_one]

/-- Bit 7 is the top bit of a byte, so nothing stands above it. -/
theorem toNat_shiftedOutLeft : (shiftedOutLeft a).toNat = a.toNat / 128 := by
  rw [shiftedOutLeft, BitVec.getLsbD, Nat.toNat_testBit]
  omega

end

/-! ### Flag-setting arithmetic (R110 to R114) -/

/-- Settles O13: the flag is the carry of the exact sum. -/
theorem addSetsCarry : Obligations.AddSetsCarry := by
  refine ⟨matchDecodes_row 14 (by decide), fun x y s => ?_⟩
  refine (ensures_aluFlag s x _ (carryOut (s.readV x) (s.readV y))).imp fun t ⟨hres, hflag, hrest⟩ => ?_
  exact ⟨fun hx => by rw [hres hx, BitVec.toNat_add], by simpa [carryOut] using hflag, hrest⟩

/-- A difference with its flag, whichever of the operands is Vx. -/
theorem ensures_aluFlag_sub (s : State) (x : Reg) (a b : Byte) :
    Ensures (aluFlag s x (a - b) (strictlyGreater a b) 2) fun t =>
      (x ≠ .vf → ((t.readV x).toNat : Int) = (a.toNat - b.toNat : Int) % 256) ∧
      t.readV .vf = (if b.toNat < a.toNat then 1 else 0) ∧ t.pc = s.pc + 2 ∧
      Frame (fun p => p = .v x ∨ p = .v .vf) s t := by
  refine (ensures_aluFlag s x _ _).imp fun t ⟨hres, hflag, hrest⟩ => ?_
  exact ⟨fun hx => by rw [hres hx, toNat_sub_int], by simpa [strictlyGreater] using hflag, hrest⟩

/-- Settles O14: SUB and SUBN take the same difference, with Vx and Vy in either order. -/
theorem subtractionsSetNoBorrow : Obligations.SubtractionsSetNoBorrow :=
  ⟨matchDecodes_row 15 (by decide), matchDecodes_row 17 (by decide), fun x y s =>
    ⟨ensures_aluFlag_sub s x (s.readV x) (s.readV y), ensures_aluFlag_sub s x (s.readV y) (s.readV x)⟩⟩

/-- Settles O15: the flag is bit 0 or bit 7 of the old Vx, and SHR_PC_ADVANCE is 2. -/
theorem shiftsSetTheBitShiftedOut : Obligations.ShiftsSetTheBitShiftedOut := by
  refine ⟨matchDecodes_row 16 (by decide), matchDecodes_row 18 (by decide), fun x y s => ⟨?_, ?_⟩⟩
  · refine (ensures_aluFlag s x _ (shiftedOutRight (s.readV x))).imp fun t ⟨hres, hflag, hrest⟩ => ?_
    exact ⟨fun hx => by rw [hres hx, toNat_ushiftRight_one],
      by rw [hflag, toNat_flagByte, toNat_shiftedOutRight], hrest⟩
  · refine (ensures_aluFlag s x _ (shiftedOutLeft (s.readV x))).imp fun t ⟨hres, hflag, hrest⟩ => ?_
    exact ⟨fun hx => by rw [hres hx, toNat_shiftLeft_one],
      by rw [hflag, toNat_flagByte, toNat_shiftedOutLeft], hrest⟩

/-! ### Loads, logic and RND (R104 to R109, R115) -/

/-- Settles O12: each instruction is `aluPlain` of its result. -/
theorem plainLoadsAndLogic : Obligations.PlainLoadsAndLogic := by
  refine ⟨matchDecodes_row 8 (by decide), matchDecodes_row 9 (by decide), matchDecodes_row 10 (by decide),
    matchDecodes_row 11 (by decide), matchDecodes_row 12 (by decide), matchDecodes_row 13 (by decide),
    fun x y kk s => ?_⟩
  have hadd : Ensures (exec (.addKk x kk) s) fun t => (t.readV x).toNat = ((s.readV x).toNat + kk.toNat) % 256 ∧
      t.pc = s.pc + 2 ∧ Frame (fun p => p = .v x) s t :=
    (ensures_aluPlain s x _).imp fun t ⟨hres, hrest⟩ => ⟨by rw [hres, BitVec.toNat_add], hrest⟩
  exact ⟨ensures_aluPlain s x _, hadd, ensures_aluPlain s x _, ensures_aluPlain s x _, ensures_aluPlain s x _,
    ensures_aluPlain s x _⟩

/-- Settles O16: the result is the input under the mask, and a supplied byte is first in the supply. -/
theorem rndMasksTheStepInput : Obligations.RndMasksTheStepInput :=
  ⟨matchDecodes_row 22 (by decide), fun x _ s => ⟨ensures_aluPlain s x _, fun _ => rfl⟩⟩

end Sys2Proof.Machine

/-! PROOFS. The family of the index register and memory (spec/43_index_memory.md): the loads of I, the digits of Vx, and
the transfers between V0..Vx and memory, with their faults, frames and round trip. -/

namespace Sys2Proof.Machine

/-! ### Frames of the writes of I, of memory and of V0..Vx -/

section
variable {may : Part → Prop} (s : State)

theorem frame_setI (hi : may .index) (w : Word) : Frame may s (s.setI w) := by
  intro p hp
  cases p with
  | index => exact absurd hi hp
  | _ => simp [Part.same]

theorem frame_setI_advance (hi : may .index) (w : Word) (k : Nat) : Frame may s ((s.setI w).advance k) :=
  (frame_setI s hi w).trans (frame_advance _ k)

/-- The end of Fx55 and Fx65 writes I alone, beside pc (R122, R123). -/
theorem frame_pastRegs (hi : may .index) (x : Reg) : Frame may s (s.pastRegs x) := frame_setI_advance s hi _ 2

theorem frame_memWrite {a : Nat} {bs : List Byte} (hbyte : ∀ b, a ≤ b ∧ b < a + bs.length → may (.byte b)) :
    Frame may s (s.memWrite a bs) := by
  intro p hp
  cases p with
  | byte b => exact s.memRead_memWrite_of_not a b bs fun h => hp (hbyte b h)
  | _ => simp [Part.same]

theorem frame_loadV {x : Reg} (hreg : ∀ r ≤ x, may (.v r)) (b : Reg → Byte) : Frame may s (s.loadV x b) := by
  intro p hp
  cases p with
  | v q => exact (s.readV_loadV x q b).trans (if_neg fun h => hp (hreg q h))
  | _ => simp [Part.same]

end

/-! ### The range check of a transfer (R14, R55) -/

section
variable {s : State} {x : Reg}

/-- A footprint that leaves memory faults, whatever the rest of the instruction is. -/
theorem raises_of_checkRange {i : Instr} {len : Nat} {body : Result} (hi : exec i s = checkRange s (len + 1) body)
    (h : 0xFFF < s.i.toNat + len) : Raises i s 3 s.i := by
  obtain ⟨-, -, hc⟩ | ⟨hin, -⟩ := checkRange_cases s (len + 1) body
  · exact raises_of_exec (f := .memOutOfRange) (by decide) (hi.trans hc)
  · omega

/-- A footprint inside memory lets the rest of the instruction run. -/
theorem checkRange_eq_body {len : Nat} (body : Result) (h : s.i.toNat + len ≤ 0xFFF) :
    checkRange s (len + 1) body = body := by
  obtain ⟨-, hout, -⟩ | ⟨-, hc⟩ := checkRange_cases s (len + 1) body
  · omega
  · exact hc

theorem exec_ldB_next (h : s.i.toNat ≤ 0xFFD) :
    exec (.ldB x) s = .next ((s.memWrite s.i.toNat (bcdDigits (s.readV x))).advance 2) :=
  checkRange_eq_body _ (by omega)

theorem exec_loadRegs_next (h : s.i.toNat + x.val ≤ 0xFFF) :
    exec (.loadRegs x) s = .next ((s.loadV x fun r => s.memRead (s.i.toNat + r.val)).pastRegs x) :=
  checkRange_eq_body _ h

end

/-! ### The values of I and the digits as numbers -/

/-- At most 1275, the product does not wrap (R120). -/
theorem toNat_zextByte_mul_five (b : Byte) : (zextByte b * 5).toNat = b.toNat * 5 := by
  have hb : (zextByte b).toNat = b.toNat := BitVec.toNat_setWidth_of_le (by decide)
  rw [BitVec.toNat_mul, hb]
  exact Nat.mod_eq_of_lt (by simp; omega)

/-- After a transfer inside memory I is at most 0x1000, so it does not wrap (R122, R123). -/
theorem toNat_add_regCount {a : Word} {x : Reg} (h : a.toNat + x.val ≤ 0xFFF) :
    (a + BitVec.ofNat 16 (regCount x)).toNat = a.toNat + x.val + 1 := by
  rw [BitVec.toNat_add, BitVec.toNat_ofNat, regCount]
  omega

theorem indexOverflow_iff (sum : Nat) : indexOverflow sum = true ↔ 0xFFF < sum := decide_eq_true_iff

/-- Each digit is read where it was written, and none is too large for its byte (R121). -/
theorem memRead_memWrite_bcdDigits (s : State) (a : Nat) (b : Byte) :
    ((s.memWrite a (bcdDigits b)).memRead a).toNat = b.toNat / 100 ∧
    ((s.memWrite a (bcdDigits b)).memRead (a + 1)).toNat = b.toNat / 10 % 10 ∧
    ((s.memWrite a (bcdDigits b)).memRead (a + 2)).toNat = b.toNat % 10 := by
  simp [State.memRead_memWrite, bcdDigits]
  omega

/-! ### Loads of I (R118 to R120) -/

/-- Settles O18: each load writes I alone, with a number that needs no reduction. -/
theorem indexLoads : Obligations.IndexLoads := by
  refine ⟨matchDecodes_row 20 (by decide), matchDecodes_row 31 (by decide), fun nnn x s => ⟨?_, ?_⟩⟩
  · exact ⟨_, rfl, toNat_zextAddr nnn, rfl, frame_setI_advance s (by rfl) _ 2⟩
  · exact ⟨_, rfl, toNat_zextByte_mul_five _, rfl, frame_setI_advance s (by rfl) _ 2⟩

/-- Settles O19: both results are of the sum that was read before VF is written, so x may be F. -/
theorem addToIndexSetsRangeFlag : Obligations.AddToIndexSetsRangeFlag := by
  refine ⟨matchDecodes_row 30 (by decide), fun x s => ⟨_, rfl, BitVec.toNat_ofNat .., ?_, rfl, ?_⟩⟩
  · simp [indexOverflow_iff, State.indexSum]
  · exact (frame_setI s (.inl rfl) _).trans ((frame_writeFlag _ (.inr rfl) _).trans (frame_advance _ 2))

/-! ### The transfers (R121 to R123) -/

/-- Settles O20: the three digits are read where they were written, and as numbers they make up the byte. -/
theorem bcdStoresTheDigits : Obligations.BcdStoresTheDigits := by
  refine ⟨matchDecodes_row 32 (by decide), fun x s => ⟨fun h => raises_of_checkRange rfl (by omega), fun h => ?_⟩⟩
  obtain ⟨hundreds, tens, units⟩ := memRead_memWrite_bcdDigits s s.i.toNat (s.readV x)
  refine ⟨_, exec_ldB_next h, hundreds, tens, units, ?_, rfl, ?_⟩
  · simp only [State.advance_keeps, hundreds, tens, units]
    omega
  · exact (frame_memWrite s fun _ hb => hb).trans (frame_advance _ 2)

/-- Settles O21: each stored register is read where it was written, and I does not wrap. -/
theorem storeRegsWritesFromIndex : Obligations.StoreRegsWritesFromIndex := by
  refine ⟨matchDecodes_row 33 (by decide), fun x s => ⟨raises_of_checkRange rfl, fun h => ?_⟩⟩
  refine ⟨_, execStoreRegs_eq_next h, fun r hr => s.memRead_memWrite_firstRegs _ hr, toNat_add_regCount h, rfl, ?_⟩
  refine Frame.trans (frame_memWrite s fun b hb => .inr ?_) (frame_pastRegs _ (.inl rfl) x)
  rwa [State.length_firstRegs] at hb

/-- Settles O22: each register up to Vx takes its byte, and I does not wrap. -/
theorem loadRegsReadsFromIndex : Obligations.LoadRegsReadsFromIndex := by
  refine ⟨matchDecodes_row 34 (by decide), fun x s => ⟨raises_of_checkRange rfl, fun h => ?_⟩⟩
  refine ⟨_, exec_loadRegs_next h, fun r hr => by simp [hr], ?_, by simp, ?_⟩
  · simp only [State.pastRegs_writes, State.loadV_keeps, toNat_add_regCount h]
  · exact (frame_loadV s (fun _ hr => .inr hr) _).trans (frame_pastRegs _ (.inl rfl) x)

/-- Settles O23: the load reads each register's byte where the store put it, and both leave I past the last. -/
theorem storeThenLoadRestoresRegisters : Obligations.StoreThenLoadRestoresRegisters := by
  intro x s t u hrange hstore hmem hi
  obtain ⟨-, store⟩ := storeRegsWritesFromIndex
  obtain ⟨-, load⟩ := loadRegsReadsFromIndex
  obtain ⟨t', hstore', hstored, hti, -⟩ := (store x s).2 hrange
  obtain rfl := Host.Outcome.next.inj (hstore'.symm.trans hstore)
  obtain ⟨w, hload, hloaded, hwi, -⟩ := (load x u).2 (hi ▸ hrange)
  refine ⟨w, hload, fun r hr => ?_, BitVec.eq_of_toNat_eq ?_⟩
  · rw [hloaded r hr, hi, hmem, hstored r hr]
  · rw [hwi, hti, hi]

end Sys2Proof.Machine

/-! PROOFS. The family of the framebuffer (spec/44_display.md): the pixels of a sprite by their index in FB, the state
that Dxyn leaves, and its second draw. -/

namespace Sys2Proof.Machine

/-! ### Frames of the writes of the screen and of draw_flag -/

theorem frame_setScreen {may : Part → Prop} (hpix : ∀ idx, may (.pixel idx)) (s : State) (f : Screen) :
    Frame may s (s.setScreen f) := by
  intro p hp
  cases p with
  | pixel idx => exact absurd (hpix idx) hp
  | _ => simp [Part.same]

theorem frame_raiseDrawFlag {may : Part → Prop} (hd : may .drawFlag) (s : State) : Frame may s s.raiseDrawFlag := by
  intro p hp
  cases p with
  | drawFlag => exact absurd hd hp
  | _ => simp [Part.same]

/-! ### The screen is cleared (R125) -/

/-- Settles O24: the screen alone is written, beside pc. -/
theorem clsClearsTheScreen : Obligations.ClsClearsTheScreen := by
  refine ⟨matchDecodes_row 1 (by decide), fun s => ⟨_, rfl, fun idx => ?_, rfl, ?_⟩⟩
  · simp
  · exact (frame_setScreen (fun _ => trivial) s _).trans (frame_advance _ 2)

/-! ### The pixels of a sprite, by their index (R33, R126, R127) -/

/-- The wrapped coordinates are those of the indices 0 to 2047. -/
theorem exists_index_iff {P : Nat → Nat → Prop} :
    (∃ px py, P (px % 64) (py % 32)) ↔ ∃ idx < 2048, P (idx % 64) (idx / 64) := by
  constructor
  · rintro ⟨px, py, h⟩
    have hcol : (px % 64 + 64 * (py % 32)) % 64 = px % 64 := by omega
    have hrow : (px % 64 + 64 * (py % 32)) / 64 = py % 32 := by omega
    exact ⟨px % 64 + 64 * (py % 32), by omega, by rwa [hcol, hrow]⟩
  · rintro ⟨idx, hidx, h⟩
    have hrow : idx / 64 % 32 = idx / 64 := Nat.mod_eq_of_lt (by omega)
    exact ⟨idx, idx / 64, by rwa [hrow]⟩

/-- A sprite with a row that is not 0 has a 1 bit, which falls on some pixel. -/
theorem exists_covers_of_row_ne_zero {rows : Nat → Byte} {n r : Nat} (hr : r < n) (hrow : rows r ≠ 0) (cx cy : Nat) :
    ∃ px py, Covers rows cx cy n (px % 64) (py % 32) := by
  have hbit : ∃ b < 8, (rows r).getLsbD b = true := by
    by_contra hnone
    refine hrow (BitVec.eq_of_getLsbD_eq fun b hb => ?_)
    simpa using fun h => hnone ⟨b, hb, h⟩
  obtain ⟨b, hb, hbit⟩ := hbit
  have hcol : 7 - (7 - b) = b := by omega
  exact ⟨cx + (7 - b), cy + r, r, 7 - b, hr, by omega, by rwa [hcol], rfl, rfl⟩

section
variable {s u : State} {x y : Reg} {n idx : Nat}

theorem pixel_sprite_ne_iff (hn : n ≤ 15) (hidx : idx < 2048) :
    (s.sprite x y n).screen.pixel (idx % 64) (idx / 64) ≠ s.pixelAt idx ↔ s.spriteCovers x y n idx := by
  have hrow : idx / 64 % 32 = idx / 64 := Nat.mod_eq_of_lt (by omega)
  have hlaw : (s.sprite x y n).screen.pixel (idx % 64) (idx / 64) = true ↔
      (s.pixelAt idx = true) ≠ s.spriteCovers x y n idx := by
    rw [State.sprite, (pixel_blit _ _ _ n _ (by omega)).1, Nat.mod_mod, hrow]
    rfl
  rw [ne_eq, Bool.eq_iff_iff, hlaw, ne_eq, eq_iff_iff]
  tauto

theorem hit_sprite_iff (hn : n ≤ 15) :
    (s.sprite x y n).hit = true ↔ ∃ idx < 2048, s.spriteCovers x y n idx ∧ s.pixelAt idx = true := by
  refine Iff.trans ?_ (exists_index_iff (P := fun px py => Covers _ _ _ n px py ∧ s.fb.pixel px py = true))
  rw [State.sprite, (pixel_blit _ _ _ n _ (by omega)).2]
  simp [Screen.pixel_mod]

theorem exists_spriteCovers_of_row_ne_zero {r : Nat} (hr : r < n) (hrow : s.memRead (s.i.toNat + r) ≠ 0) :
    ∃ idx < 2048, s.spriteCovers x y n idx :=
  exists_index_iff.mp (exists_covers_of_row_ne_zero hr hrow _ _)

/-- A sprite is its bytes and its place. -/
theorem spriteCovers_congr (hmem : ∀ a : Nat, u.memRead a = s.memRead a) (hi : u.i = s.i)
    (hx : u.readV x = s.readV x) (hy : u.readV y = s.readV y) :
    u.spriteCovers x y n idx ↔ s.spriteCovers x y n idx := by
  simp only [State.spriteCovers, hmem, hi, hx, hy]

/-! ### The state that Dxyn leaves (R126) -/

/-- The state after Dxyn whose rows all lie in memory. -/
def State.drawn (s : State) (x y : Reg) (n : Nat) : State :=
  (((s.setScreen (s.sprite x y n).screen).writeFlag (s.sprite x y n).hit).raiseDrawFlag).advance 2

theorem exec_drw_next (h : n = 0 ∨ s.i.toNat + n - 1 ≤ 0xFFF) : exec (.drw x y n) s = .next (s.drawn x y n) := by
  obtain ⟨hrows, hout, -⟩ | ⟨-, hc⟩ := checkRange_cases s n (.next (s.drawn x y n))
  · omega
  · exact hc

theorem pixelAt_drawn_ne_iff (hn : n ≤ 15) (hidx : idx < 2048) :
    (s.drawn x y n).pixelAt idx ≠ s.pixelAt idx ↔ s.spriteCovers x y n idx := by
  have hpix : (s.drawn x y n).pixelAt idx = (s.sprite x y n).screen.pixel (idx % 64) (idx / 64) := by
    simp [State.drawn]
  rw [hpix, pixel_sprite_ne_iff hn hidx]

theorem readV_vf_drawn : (s.drawn x y n).readV .vf = if (s.sprite x y n).hit then 1 else 0 := by simp [State.drawn]

theorem readV_vf_drawn_eq_one_iff (hn : n ≤ 15) :
    (s.drawn x y n).readV .vf = 1 ↔ ∃ idx < 2048, s.spriteCovers x y n idx ∧ s.pixelAt idx = true := by
  rw [readV_vf_drawn, ← hit_sprite_iff hn]
  simp

theorem readV_vf_drawn_eq_zero_iff (hn : n ≤ 15) :
    (s.drawn x y n).readV .vf = 0 ↔ ¬ ∃ idx < 2048, s.spriteCovers x y n idx ∧ s.pixelAt idx = true := by
  rw [readV_vf_drawn, ← hit_sprite_iff hn]
  simp

/-- A pixel goes from 1 to 0 when it is covered and was 1. -/
theorem exists_cleared_iff (hn : n ≤ 15) :
    (∃ idx < 2048, s.pixelAt idx = true ∧ (s.drawn x y n).pixelAt idx = false) ↔
      ∃ idx < 2048, s.spriteCovers x y n idx ∧ s.pixelAt idx = true := by
  refine exists_congr fun idx => and_congr_right fun hidx => ?_
  rw [← pixelAt_drawn_ne_iff hn hidx, and_comm]
  exact and_congr_left fun hs => by simp [hs]

theorem frame_drawn : Frame (fun p => p = .v .vf ∨ p = .drawFlag ∨ anyPixel p) s (s.drawn x y n) := by
  unfold State.drawn
  exact (frame_setScreen (fun _ => .inr (.inr trivial)) s _).trans ((frame_writeFlag _ (.inl rfl) _).trans
    ((frame_raiseDrawFlag (.inr (.inl rfl)) _).trans (frame_advance _ 2)))

end

/-- Settles O25: the range check decides the fault, and the blit law gives the pixels and the flag. -/
theorem drwFlipsExactlyTheSpritePixels : Obligations.DrwFlipsExactlyTheSpritePixels := by
  refine ⟨matchDecodes_row 23 (by decide), fun x y n s hn => ⟨fun hrows hout => ?_, fun h => ?_⟩⟩
  · obtain ⟨k, rfl⟩ : ∃ k, n = k + 1 := ⟨n - 1, by omega⟩
    exact raises_of_checkRange rfl (by omega)
  · refine ⟨_, exec_drw_next h, fun idx hidx => pixelAt_drawn_ne_iff hn hidx, ?_, ?_, rfl, rfl, frame_drawn⟩
    · rw [exists_cleared_iff hn]
      exact (readV_vf_drawn_eq_one_iff hn).mpr
    · rw [exists_cleared_iff hn]
      exact (readV_vf_drawn_eq_zero_iff hn).mpr

/-! ### The second draw (R128) -/

/-- Settles O26: both draws flip the pixels of one sprite, so the second finds each covered pixel as the first left
it, the opposite of what it was. -/
theorem drawingTwiceRestoresTheScreen : Obligations.DrawingTwiceRestoresTheScreen := by
  intro x y n s t u hn hrange ht hpix hmem hi hx hy
  obtain rfl := Host.Outcome.next.inj ((exec_drw_next hrange).symm.trans ht)
  have hcov : ∀ idx, u.spriteCovers x y n idx ↔ s.spriteCovers x y n idx := fun _ => spriteCovers_congr hmem hi hx hy
  have hfirst : ∀ idx < 2048, u.pixelAt idx ≠ s.pixelAt idx ↔ s.spriteCovers x y n idx := fun idx hidx => by
    rw [hpix idx hidx, pixelAt_drawn_ne_iff hn hidx]
  have hflag : (u.drawn x y n).readV .vf = 1 ↔ ∃ idx < 2048, s.spriteCovers x y n idx ∧ s.pixelAt idx = false := by
    rw [readV_vf_drawn_eq_one_iff hn]
    refine exists_congr fun idx => and_congr_right fun hidx => ?_
    rw [hcov, ← hfirst idx hidx]
    exact and_congr_right fun hne => by rw [Bool.eq_not.mpr hne, Bool.not_eq_true']
  refine ⟨_, exec_drw_next (hi ▸ hrange), fun idx hidx => ?_, hflag, fun hclear => ⟨?_, ?_⟩⟩
  · have hsecond : (u.drawn x y n).pixelAt idx ≠ u.pixelAt idx ↔ u.pixelAt idx ≠ s.pixelAt idx := by
      rw [pixelAt_drawn_ne_iff hn hidx, hcov, hfirst idx hidx]
    have htwice : ∀ old mid new : Bool, (new ≠ mid ↔ mid ≠ old) → new = old := by decide
    exact htwice _ _ _ hsecond
  · rw [readV_vf_drawn_eq_zero_iff hn]
    rintro ⟨idx, hidx, hc, hset⟩
    simp [hclear idx hidx hc] at hset
  · rintro ⟨r, hr, hrow⟩
    obtain ⟨idx, hidx, hc⟩ := exists_spriteCovers_of_row_ne_zero (x := x) (y := y) hr hrow
    exact hflag.mpr ⟨idx, hidx, hc, hclear idx hidx hc⟩

end Sys2Proof.Machine

/-! PROOFS. The family of timers and keys (spec/45_timers_keys.md): the key skips and their fault, the timer moves, the
key that Fx0A takes, and a timer's load with the tick that follows it. -/

namespace Sys2Proof.Machine

section
variable {s : State} {x k : Reg} {body : Reg → Result}

/-! ### The key operand (R129, R130) -/

theorem exec_skp : exec (.skp x) s = withKey s x fun k => skipIf s (s.keyDown k) := rfl

theorem exec_sknp : exec (.sknp x) s = withKey s x fun k => skipIf s (!s.keyDown k) := rfl

/-- A number above 0xF faults, whatever the rest of the instruction is. -/
theorem raises_of_withKey {i : Instr} (hi : exec i s = withKey s x body) (h : 0xF < (s.readV x).toNat) :
    Raises i s 5 (BitVec.ofNat 16 (s.readV x).toNat) := by
  obtain ⟨-, hc⟩ | ⟨q, hq, -⟩ := withKey_cases s x body
  · rw [BitVec.ofNat_toNat]
    exact raises_of_exec (f := .keyOutOfRange) (by decide) (hi.trans hc)
  · omega

/-- A number up to 0xF hands its key to the rest of the instruction. -/
theorem withKey_eq_body (h : (s.readV x).toNat = k.val) : withKey s x body = body k := by
  obtain ⟨hout, -⟩ | ⟨q, hq, hc⟩ := withKey_cases s x body
  · omega
  · rwa [Fin.ext (hq.trans h)] at hc

/-! ### The key that Fx0A takes (R132) -/

/-- With `k` pressed some key is taken; it is `k` if the priority allows no other. -/
theorem chosenKey_eq_some {p : KeyPriority} (hk : s.keyDown k = true)
    (honly : ∀ q, chosenKey p s.pressedKeys = some q → q = k) : chosenKey p s.pressedKeys = some k := by
  cases hc : chosenKey p s.pressedKeys with
  | none => exact absurd hk (by simp [(chosenKey_eq_none p s).mp hc k])
  | some q => rw [honly q hc]

theorem chosenKey_highest_eq_some (hk : s.keyDown k = true) (hmax : ∀ q, s.keyDown q = true → q ≤ k) :
    chosenKey .highest s.pressedKeys = some k :=
  chosenKey_eq_some hk fun q hq =>
    have ⟨hdown, habove⟩ := chosenKey_highest s q hq
    le_antisymm (hmax q hdown) (habove k hk)

theorem chosenKey_lowest_eq_some (hk : s.keyDown k = true) (hmin : ∀ q, s.keyDown q = true → k ≤ q) :
    chosenKey .lowest s.pressedKeys = some k :=
  chosenKey_eq_some hk fun q hq =>
    have ⟨hdown, hbelow⟩ := chosenKey_lowest s q hq
    le_antisymm (hbelow k hk) (hmin q hdown)

theorem exec_ldVxK_none (h : ∀ q, s.keyDown q = false) : exec (.ldVxK x) s = .next s := by
  have hnone : chosenKey hardware.fx0aPriority s.pressedKeys = none := (chosenKey_eq_none _ s).mpr h
  rw [exec, execLdVxK, hnone]

/-- The key taken goes into Vx as `aluPlain` writes it. -/
theorem exec_ldVxK_some (h : chosenKey hardware.fx0aPriority s.pressedKeys = some k) :
    exec (.ldVxK x) s = aluPlain s x (keyByte k) := by
  rw [exec, execLdVxK, h]
  rfl

end

/-! ### Frames of the timer loads (R133, R134) -/

section
variable {may : Part → Prop} (s : State)

theorem frame_setDt (hd : may .delay) (b : Byte) : Frame may s (s.setDt b) := by
  intro p hp
  cases p with
  | delay => exact absurd hd hp
  | _ => simp [Part.same]

theorem frame_setSt (hs : may .sound) (b : Byte) : Frame may s (s.setSt b) := by
  intro p hp
  cases p with
  | sound => exact absurd hs hp
  | _ => simp [Part.same]

end

/-! ### A step whose instruction does not fault (R81) -/

/-- An instruction that leaves FAULT_CODE as it was ends its step with the tick. -/
theorem step_eq_tick {i : Instr} {s u : State} (hh : ¬ s.halted) (hpc : s.pc.toNat ≤ 0xFFE)
    (hd : decode s.fetchWord = .instr i) (hx : exec i (s.latched s.fetchWord) = .next u)
    (hcode : u.faultCode = s.faultCode) : step s = .next u.tick.takeInput := by
  have hu : ¬ u.halted := by rwa [State.halted, hcode]
  rw [step_eq_exec hh hpc hd hx, if_neg hu]

/-! ### The obligations -/

/-- Settles O27: both instructions are `withKey` of a skip. -/
theorem keySkips : Obligations.KeySkips := by
  refine ⟨matchDecodes_row 24 (by decide), matchDecodes_row 25 (by decide), fun x s => ⟨fun h => ?_, fun k h => ?_⟩⟩
  · exact ⟨raises_of_withKey exec_skp h, raises_of_withKey exec_sknp h⟩
  · rw [exec_skp, exec_sknp, withKey_eq_body h, withKey_eq_body h]
    exact ⟨ensures_skipIf_frame rfl, ensures_skipIf_frame (by cases s.keyDown k <;> rfl)⟩

/-- Settles O29: with no key pressed the state stays; FX0A_PRIORITY is highest, and the highest pressed key, like the
lowest, is the one that its priority takes. -/
theorem keyWaitTakesTheHighestKey : Obligations.KeyWaitTakesTheHighestKey := by
  refine ⟨matchDecodes_row 27 (by decide), fun x s =>
    ⟨exec_ldVxK_none, fun k hk hmax => ?_, fun _ => chosenKey_lowest_eq_some⟩⟩
  rw [exec_ldVxK_some (chosenKey_highest_eq_some hk hmax)]
  exact (ensures_aluPlain s x (keyByte k)).imp fun t ⟨hres, hrest⟩ => ⟨by rw [hres, toNat_keyByte], hrest⟩

/-- Settles O30: the tick counts down the V[x] that the load has left in the timer, and a loaded ST of 1 sounds. -/
theorem timerWriteThenTick : Obligations.TimerWriteThenTick := by
  intro x s t hh hpc h
  refine ⟨fun hd => ?_, fun hd => ?_⟩
  all_goals
    obtain rfl := Host.Outcome.next.inj ((step_eq_tick hh hpc hd rfl rfl).symm.trans h)
    rw [State.tick_takeInput_eq]
  · exact toNat_countDown _
  · exact ⟨toNat_countDown _, by simp⟩

/-- Settles O28: each move writes one part and goes to the next opcode. -/
theorem timerMoves : Obligations.TimerMoves := by
  refine ⟨matchDecodes_row 26 (by decide), matchDecodes_row 28 (by decide), matchDecodes_row 29 (by decide),
    fun x s => ⟨ensures_aluPlain s x s.dt, ?_, ?_⟩⟩
  · exact ⟨_, rfl, rfl, rfl, (frame_setDt s (by rfl) _).trans (frame_advance _ 2)⟩
  · exact ⟨_, rfl, rfl, rfl, (frame_setSt s (by rfl) _).trans (frame_advance _ 2)⟩

end Sys2Proof.Machine

/-! PROOFS. The family of faults (spec/60_exceptions.md): the conditions of the fault table for an instruction and for a
step, precision, and the exit from the halt. -/

namespace Sys2Proof.Machine

/-! ### The fault table of an instruction (R138, R144) -/

section
variable {i : Instr} {s : State} {code code' : BitVec 3} {info info' : Word}

/-- The instructions with a data footprint check it, so it faults where it leaves memory (R55). -/
theorem raises_of_footprint (hlen : 1 ≤ i.footprint) (hout : 0xFFF < s.i.toNat + i.footprint - 1) :
    Raises i s 3 s.i := by
  cases i with
  | drw x y n =>
    obtain ⟨k, rfl⟩ : ∃ k, n = k + 1 := Nat.exists_eq_add_of_le' hlen
    exact raises_of_checkRange rfl hout
  | ldB | storeRegs | loadRegs => exact raises_of_checkRange rfl hout
  | _ => exact absurd hlen (Nat.not_succ_le_zero 0)

/-- The instructions with a key register check its number, so a number above 0xF faults (R129, R130). -/
theorem raises_of_keyReg {x : Reg} (hi : i.keyReg = some x) (hkey : 0xF < (s.readV x).toNat) :
    Raises i s 5 (BitVec.ofNat 16 (s.readV x).toNat) := by
  cases i with
  | skp =>
    obtain rfl := Option.some.inj hi
    exact raises_of_withKey exec_skp hkey
  | sknp =>
    obtain rfl := Option.some.inj hi
    exact raises_of_withKey exec_sknp hkey
  | _ => cases hi

/-- Where a row of the fault table applies, the instruction enters its fault. -/
theorem FaultRow.raises (h : FaultRow s i code info) : Raises i s code info := by
  obtain ⟨⟨nnn, rfl⟩, hsp, rfl, rfl⟩ | ⟨rfl, hsp, rfl, rfl⟩ | ⟨hlen, hout, rfl, rfl⟩ | ⟨x, hi, hkey, rfl, hinfo⟩ := h
  · obtain ⟨-, call⟩ := callPushesItsOwnAddress
    exact (call nnn s).1 hsp
  · obtain ⟨-, ret⟩ := retResumesAfterTheCall
    exact (ret s).1 hsp
  · exact raises_of_footprint hlen hout
  · have hw : info = BitVec.ofNat 16 (s.readV x).toNat := by rw [← hinfo, BitVec.ofNat_toNat, BitVec.setWidth_eq]
    exact hw ▸ raises_of_keyReg hi hkey

/-- An instruction has one answer, so it enters one fault at most. -/
theorem Raises.unique (h : Raises i s code info) (h' : Raises i s code' info') : code = code' ∧ info = info' := by
  obtain ⟨t, ht, hcode, -, -, hinfo, -⟩ := h
  obtain ⟨t', ht', hcode', -, -, hinfo', -⟩ := h'
  obtain rfl := Host.Outcome.next.inj (ht.symm.trans ht')
  exact ⟨hcode.symm.trans hcode', hinfo.symm.trans hinfo'⟩

end

/-- Settles O42: a row that applies is entered, two rows would be two answers of one instruction, and a fault that is
entered is that of a row. -/
theorem faultsExactlyAsListed : Obligations.FaultsExactlyAsListed := by
  refine fun i s => ⟨fun _ _ h => h.raises, fun _ _ _ _ h h' => h.raises.unique h'.raises, fun hno => ?_⟩
  refine (exec_rowFault_or_systemKept i s).imp fun t ht => ?_
  obtain ⟨f, w, -, hrow, -⟩ | ⟨hcode, hpc, hop, hinfo, -⟩ := ht
  · exact absurd hrow (hno f.code w)
  · exact ⟨hcode, hpc, hop, hinfo⟩

/-! ### The faults of a step (R138, R141) -/

section
variable {s t : State}

/-- A step that halts the block abandons a fetch out of range, or an instruction that entered a fault of its row; the
rows speak of no latch, so they hold of the state at the start of the step. -/
theorem step_halts (hh : ¬ s.halted) (h : step s = .next t) (ht : t.halted) :
    (0xFFE < s.pc.toNat ∧ t = s.abandon (s.takeFault .fetchOutOfRange s.pc)) ∨
    (s.pc.toNat ≤ 0xFFE ∧ ∃ i f w, decode s.fetchWord = .instr i ∧ f ≠ .fetchOutOfRange ∧ FaultRow s i f.code w ∧
      t = s.abandon ((s.latched s.fetchWord).takeFault f w)) := by
  obtain ⟨hs, -⟩ | ⟨-, hpc, rfl⟩ | ⟨-, -, -, rfl⟩ | ⟨-, hpc, i, u, hd, hx, rfl⟩ := step_cases h
  · exact absurd hs hh
  · exact .inl ⟨hpc, rfl⟩
  · exact absurd (by simpa using ht) hh
  · obtain ⟨f, w, hf, hrow, rfl⟩ | ⟨hcode, -⟩ := (exec_rowFault_or_systemKept i _).holds hx
    · exact .inr ⟨hpc, i, f, w, hd, hf, hrow, if_pos (Fault.code_ne_zero f)⟩
    · have hu : ¬ u.halted := by rwa [State.halted, hcode]
      rw [if_neg hu] at ht
      exact absurd (by simpa using ht) hu

end

/-- Settles O43: the fetch fault and the fault of a row that applies are the step's, and a step that halts the block has
met one of them. -/
theorem stepFaultsExactlyAsListed : Obligations.StepFaultsExactlyAsListed := by
  refine fun s t hh h => ⟨fun hpc => ?_, fun hpc i code info hd hrow => ?_, fun hpc hno ht => ?_⟩
  · obtain rfl := Host.Outcome.next.inj ((step_eq_fetchFault hh hpc).symm.trans h)
    exact ⟨rfl, rfl, rfl, rfl⟩
  · have hraises : Raises i (s.latched s.fetchWord) code info := FaultRow.raises hrow
    obtain ⟨u, hx, rfl, hfpc, hfop, hinfo, -⟩ := hraises
    obtain rfl := Host.Outcome.next.inj ((step_eq_exec hh hpc hd hx).symm.trans h)
    rw [if_pos hrow.code_ne_zero]
    exact ⟨rfl, hinfo, hfpc, hfop⟩
  · obtain ⟨hout, -⟩ | ⟨-, i, f, w, hd, -, hrow, -⟩ := step_halts hh h ht
    · omega
    · exact hno i f.code w hd hrow

/-- Settles O44: either way of halting abandons the step, and an abandoned step keeps all but the fault registers. -/
theorem faultsArePrecise : Obligations.FaultsArePrecise := by
  intro s t hh h ht
  obtain ⟨hpc, rfl⟩ | ⟨hpc, i, f, w, -, hf, -, rfl⟩ := step_halts hh h ht
  · exact ⟨rfl, (if_pos hpc).symm, rfl, rfl, frame_abandon s _⟩
  · refine ⟨rfl, ?_, rfl, rfl, frame_abandon s _⟩
    rw [if_neg (Nat.not_lt.mpr hpc)]
    exact State.opcodeFor_of_ne (s.latched s.fetchWord) f hf

/-! ### The exit from the halt (R143, R159, R160) -/

section
variable {s : State} {bytes : List Byte}

theorem hostLoad_accepts (h : bytes.length ≤ maxProgLen) :
    hostLoad bytes s = ((hostReset s).memWrite progBase bytes, .loaded) := by
  rw [hostLoad, loadProgram, if_neg (Nat.not_lt.mpr h)]

theorem hostLoad_refuses (h : maxProgLen < bytes.length) : hostLoad bytes s = (s, .loadError) := by
  rw [hostLoad, loadProgram, if_pos h]

theorem hostStep_of_halted (hh : s.halted) (rnd : Byte) :
    hostStep rnd s = ((supplyRnd rnd s).idle, .events []) := by
  rw [hostStep, step_eq_idle (s := supplyRnd rnd s) hh]
  rfl

end

/-- Settles O45: a reset and an accepted load start from the reset state; a refused load keeps the state, a step of the
halted block is idle, and the other operations write no fault register. -/
theorem onlyResetLeavesTheHalt : Obligations.OnlyResetLeavesTheHalt := by
  refine fun op s hh => ⟨?_, fun hno => ?_⟩
  · rintro (rfl | ⟨bytes, rfl, hlen⟩)
    · exact ⟨rfl, rfl, rfl, rfl⟩
    · rw [hostOp, hostLoad_accepts hlen]
      exact ⟨rfl, rfl, rfl, rfl⟩
  · cases op with
    | reset => exact absurd (.inl rfl) hno
    | loadProgram bytes =>
      have hlen : 3584 < bytes.length := Nat.lt_of_not_le fun hle => hno (.inr ⟨bytes, rfl, hle⟩)
      rw [hostOp, hostLoad_refuses hlen]
      exact ⟨rfl, rfl, rfl, rfl⟩
    | step rnd =>
      rw [hostOp, hostStep_of_halted hh]
      exact ⟨rfl, rfl, rfl, rfl⟩
    | keyWrite | fbRead | drawFlagRead | drawFlagClear | statusRead => exact ⟨rfl, rfl, rfl, rfl⟩

end Sys2Proof.Machine

/-! PROOFS. The family of reset (spec/70_reset_and_hazards.md): what a reset sets, what a load puts on top of it, and the
block that steps with no program loaded. -/

namespace Sys2Proof.Machine

/-! ### What a reset reads as (R157) -/

section
variable (s : State)

@[simp] theorem readV_hostReset (r : Reg) : (hostReset s).readV r = 0 := by
  simp [State.readV, hostReset, State.reset, Vector.get_eq_getElem]

@[simp] theorem stackAt_hostReset (j : Fin 16) : (hostReset s).stackAt j = 0 := by
  simp [State.stackAt, hostReset, State.reset, Vector.get_eq_getElem]

@[simp] theorem keyDown_hostReset (k : Reg) : (hostReset s).keyDown k = false := by
  simp [State.keyDown, hostReset, State.reset, Vector.get_eq_getElem]

@[simp] theorem pixelAt_hostReset (idx : Nat) : (hostReset s).pixelAt idx = false :=
  Screen.pixel_clear ..

/-- No byte is listed at reset, so each address reads as its reset contents (R30). -/
@[simp] theorem memRead_hostReset (a : Nat) : (hostReset s).memRead a = unlistedByte a := rfl

end

/-- The reset contents begin with the fontset (R31). -/
theorem unlistedByte_of_lt {a : Nat} (h : a < hardware.font.length) : unlistedByte a = hardware.font[a] :=
  List.getD_eq_getElem _ _ h

/-- Above the fontset the reset contents are 0 (R30). -/
theorem unlistedByte_of_le {a : Nat} (h : hardware.font.length ≤ a) : unlistedByte a = 0 :=
  List.getD_eq_default _ _ h

/-- Settles O49: the vectors and the screen read as 0, memory as its reset contents, and the other fields are set one by
one. -/
theorem resetSetsEveryState : Obligations.ResetSetsEveryState := fun s =>
  ⟨readV_hostReset s, rfl, rfl, rfl, stackAt_hostReset s, rfl, rfl, pixelAt_hostReset s, rfl, keyDown_hostReset s,
    rfl, rfl, rfl, rfl, rfl, rfl, rfl, fun _ => unlistedByte_of_lt, fun _ => unlistedByte_of_le⟩

/-! ### The load (R159, R160) -/

/-- Each byte of the written ones is read where it was written. -/
theorem State.memRead_memWrite_add (s : State) (a : Nat) {bs : List Byte} {k : Nat} (h : k < bs.length) :
    (s.memWrite a bs).memRead (a + k) = bs[k] := by
  rw [State.memRead_memWrite, dif_pos ⟨Nat.le_add_right .., Nat.add_lt_add_left h a⟩]
  simp only [Nat.add_sub_cancel_left]

/-- Settles O50: an image that does not fit is refused; one that fits is written over the reset state, and a write of
memory touches the bytes of the image alone. -/
theorem loadProgramResetsThenCopies : Obligations.LoadProgramResetsThenCopies := by
  refine fun bytes s => ⟨hostLoad_refuses, fun hlen => ⟨_, hostLoad_accepts hlen, fun k hk => ?_, rfl, ?_, ?_⟩⟩
  · exact State.memRead_memWrite_add _ progBase hk
  · exact not_not_intro rfl
  · exact frame_memWrite _ fun b hb => hb

/-! ### Steps with no program loaded (R158) -/

/-- `t` is the reset state after `n` steps that only waited, the last of them with the warning of 0x0000. -/
structure WarnedSinceReset (n : Nat) (t : State) : Prop where
  elapsed : Elapsed n State.reset t
  events : t.events = [.decodeWarning 0x0000]

/-- While time passes after a reset, pc stays at a zero word, which is no opcode, so the next step warns; ST is 0 from
the reset on, so no Tone comes with the warning (R87, R90). -/
theorem Elapsed.warns {n : Nat} {s : State} (h : Elapsed n State.reset s) :
    Ensures (step s) (WarnedSinceReset (n + 1)) := by
  obtain ⟨hcode, hop⟩ := h.fetches
  have hword : s.fetchWord = 0x0000 := hop.trans (by decide)
  have hhalt : ¬ s.halted := by
    rw [State.halted, hcode]
    decide
  have hpc : s.pc.toNat ≤ 0xFFE := by
    rw [h.pc]
    decide
  have hunknown : decode s.fetchWord = .unknown s.fetchWord := by
    rw [hword]
    decide
  have hst : s.st = 0 := BitVec.eq_of_toNat_eq (h.st.trans (Nat.zero_sub n))
  obtain ⟨t, hstep, hpc', hev, hdt, hst', -, hframe⟩ := unknownOpcodeWarnsAndStays s hhalt hpc hunknown
  rw [hword, hst, if_neg (by decide)] at hev
  exact ⟨t, hstep, h.trans ⟨hpc', hdt, hst', hframe⟩, hev⟩

/-- Settles O36: the first step warns, and every warned state warns again; pc and memory are none of what passing time
changes. -/
theorem freshResetRepeatsTheWarning : Obligations.FreshResetRepeatsTheWarning := by
  intro n
  obtain ⟨u, hu, hwarned⟩ := (Elapsed.refl State.reset).warns
  obtain ⟨t, hrun, ht⟩ := run_ensures (P := WarnedSinceReset) (fun _ _ h => h.elapsed.warns) n hwarned
  exact ⟨t, (run_succ_of_step hu).trans hrun, ht.elapsed.pc, ht.events,
    fun a => ht.elapsed.frame (.byte a) (by simp)⟩

end Sys2Proof.Machine
